-- ==== Sys2Proof/Word.lean ====
section
/-! DEFINITION. The value types of 00_scope.md R12: unsigned, with bit 0 the least significant bit (R13). -/

namespace Sys2Proof

/-- `Byte` of R12. -/
abbrev Byte := BitVec 8

/-- `Word32` of R12: every register that holds hash data. -/
abbrev Word32 := BitVec 32

/-- `Word64` of R12: the message's bit length. -/
abbrev Word64 := BitVec 64

end Sys2Proof
end

