-- ==== Sys2Proof/Syntax.lean ====
section
/-! DEFINITION. The instructions: one constructor per row of spec/opcode_table.json, and the three forms in which an instruction
reaches the engine. -/

namespace Sys2Proof

/-- The algorithm selector ALG (10_state.md R22, 30_encoding.md R72), a 1-bit value. -/
inductive Alg where
  | sha1
  | sha256
  deriving DecidableEq, Repr

/-- The instructions. The message operand of a START travels beside the command word (R79) and is not part of the word.
Where the table leaves bit 4 (ALG) of a micro-operation word free, `alg` keeps that bit; the meaning does not depend on it. -/
inductive Instr where
  /-- R101. `inv` is bit 5 of the command word. -/
  | startSha1 (inv : Bool)
  /-- R102. -/
  | startSha256 (inv : Bool)
  /-- R103: a command word `c` that is none of the four legal ones. -/
  | illegal (c : Word32)
  /-- R104: a read of the STATUS port. -/
  | readStatus
  /-- R224. -/
  | idle (alg : Alg)
  /-- R120. -/
  | check (alg : Alg)
  /-- R121. -/
  | pad (alg : Alg)
  /-- R160. -/
  | sha1InitAcc
  /-- R190. -/
  | sha256InitAcc
  /-- R140. -/
  | loadBlock (alg : Alg)
  /-- R141. -/
  | sha1Expand
  /-- R143. -/
  | sha256Expand
  /-- R161. -/
  | sha1InitWs
  /-- R191. -/
  | sha256InitWs
  /-- R162. -/
  | sha1Round
  /-- R192. -/
  | sha256Round
  /-- R163. -/
  | sha1Fold
  /-- R193. -/
  | sha256Fold
  /-- R220. -/
  | sha1Finalize
  /-- R221. -/
  | sha256Finalize
  /-- R223. -/
  | done (alg : Alg)
  /-- R251. -/
  | error (alg : Alg)
  /-- R76: PHASE holds one of the reserved codes 0xC to 0xF. -/
  | reservedPhase (alg : Alg) (code : BitVec 4)
  deriving DecidableEq, Repr

/-- The form in which an instruction reaches the engine: a command word written to CMD (format CMD32, R70), a read of the STATUS
port (no word, R104), or the micro-operation word named by the sequencer (format UOP8, R75). -/
inductive Fetched where
  | cmd (c : Word32)
  | statusRead
  | uop (u : Byte)
  deriving DecidableEq, Repr

end Sys2Proof
end

