-- ==== Sys2Proof/WellFormed.lean ====
section
/-! DEFINITION. Which instructions are those of the table: the two operands that could hold a value of another row. -/

namespace Sys2Proof

/-- A legal START word (R74): bits 3:0 are 1, bits 31:6 are 0, bits 4 and 5 are free. -/
def legalCommand (c : Word32) : Bool :=
  c &&& 0xFFFFFFDF#32 == 0x00000001#32 || c &&& 0xFFFFFFDF#32 == 0x00000011#32

/-- The row ILLEGAL holds every word but the four legal ones; the row RESERVED_PHASE holds the codes 0xC to 0xF. -/
def Instr.wellFormed : Instr → Bool
  | .illegal c => !legalCommand c
  | .reservedPhase _ code => 12 ≤ code.toNat
  | .startSha1 _ | .startSha256 _ | .readStatus | .idle _ | .check _ | .pad _ | .sha1InitAcc | .sha256InitAcc
  | .loadBlock _ | .sha1Expand | .sha256Expand | .sha1InitWs | .sha256InitWs | .sha1Round | .sha256Round
  | .sha1Fold | .sha256Fold | .sha1Finalize | .sha256Finalize | .done _ | .error _ => true

end Sys2Proof
end

