-- ==== Sys2Proof/Decode.lean ====
section
/-! DEFINITION. The decoder of 30_encoding.md (R70 to R79), total on every command word and every micro-operation word, and after
it the encoder, written from the same tables. -/

namespace Sys2Proof

/-- The code of the algorithm selector (R72): 0 selects SHA1, 1 selects SHA256. -/
def Alg.bit : Alg → BitVec 1
  | .sha1 => 0
  | .sha256 => 1

def Alg.ofBit (b : BitVec 1) : Alg :=
  if b = 0 then .sha1 else .sha256

/-! The phase codes of R75. -/

abbrev Phase.idle : BitVec 4 := 0x0
abbrev Phase.check : BitVec 4 := 0x1
abbrev Phase.pad : BitVec 4 := 0x2
abbrev Phase.initAcc : BitVec 4 := 0x3
abbrev Phase.loadBlock : BitVec 4 := 0x4
abbrev Phase.expand : BitVec 4 := 0x5
abbrev Phase.initWs : BitVec 4 := 0x6
abbrev Phase.round : BitVec 4 := 0x7
abbrev Phase.fold : BitVec 4 := 0x8
abbrev Phase.finalize : BitVec 4 := 0x9
abbrev Phase.done : BitVec 4 := 0xA
abbrev Phase.error : BitVec 4 := 0xB

/-- Why a word is no instruction. -/
inductive DecodeError where
  /-- A UOP8 word whose bits 7:5 are not zero (R75). No command word is rejected: R74 gives each one a row. -/
  | notAMicroOperation
  deriving DecidableEq, Repr

/-- `decode(c)` of R74. -/
def decodeCmd (c : Word32) : Instr :=
  if c.extractLsb' 0 4 = 0x1#4 ∧ c.extractLsb' 6 26 = 0#26 then
    if c.extractLsb' 4 1 = 0#1 then .startSha1 (c.getLsbD 5) else .startSha256 (c.getLsbD 5)
  else .illegal c

/-- The micro-operation of a phase code, by the table of R75; the codes 0xC to 0xF are the row RESERVED_PHASE (R76). -/
def decodePhase (alg : Alg) (phase : BitVec 4) : Instr :=
  match phase.toNat, alg with
  | 0, _ => .idle alg
  | 1, _ => .check alg
  | 2, _ => .pad alg
  | 3, .sha1 => .sha1InitAcc
  | 3, .sha256 => .sha256InitAcc
  | 4, _ => .loadBlock alg
  | 5, .sha1 => .sha1Expand
  | 5, .sha256 => .sha256Expand
  | 6, .sha1 => .sha1InitWs
  | 6, .sha256 => .sha256InitWs
  | 7, .sha1 => .sha1Round
  | 7, .sha256 => .sha256Round
  | 8, .sha1 => .sha1Fold
  | 8, .sha256 => .sha256Fold
  | 9, .sha1 => .sha1Finalize
  | 9, .sha256 => .sha256Finalize
  | 10, _ => .done alg
  | 11, _ => .error alg
  | _, _ => .reservedPhase alg phase

/-- R75: PHASE in bits 3:0, ALG in bit 4, bits 7:5 zero. -/
def decodeUop (u : Byte) : Except DecodeError Instr :=
  if u.extractLsb' 5 3 = 0#3 then .ok (decodePhase (Alg.ofBit (u.extractLsb' 4 1)) (u.extractLsb' 0 4))
  else .error .notAMicroOperation

/-- The decoder, on the form an instruction arrives in. -/
def decode : Fetched → Except DecodeError Instr
  | .cmd c => .ok (decodeCmd c)
  | .statusRead => .ok .readStatus
  | .uop u => decodeUop u

/-! The encoder. -/

/-- A START word (format CMD32 of R70): OP = 1, ALG, INV, RSV = 0. -/
def encodeStart (alg : Alg) (inv : Bool) : Fetched :=
  .cmd (0#26 ++ BitVec.ofBool inv ++ alg.bit ++ 0x1#4)

/-- A micro-operation word (format UOP8 of R75): `(ALG << 4) | PHASE`. -/
def uopWord (alg : Alg) (phase : BitVec 4) : Byte :=
  0#3 ++ alg.bit ++ phase

def encode : Instr → Fetched
  | .startSha1 inv => encodeStart .sha1 inv
  | .startSha256 inv => encodeStart .sha256 inv
  | .illegal c => .cmd c
  | .readStatus => .statusRead
  | .idle alg => .uop (uopWord alg Phase.idle)
  | .check alg => .uop (uopWord alg Phase.check)
  | .pad alg => .uop (uopWord alg Phase.pad)
  | .sha1InitAcc => .uop (uopWord .sha1 Phase.initAcc)
  | .sha256InitAcc => .uop (uopWord .sha256 Phase.initAcc)
  | .loadBlock alg => .uop (uopWord alg Phase.loadBlock)
  | .sha1Expand => .uop (uopWord .sha1 Phase.expand)
  | .sha256Expand => .uop (uopWord .sha256 Phase.expand)
  | .sha1InitWs => .uop (uopWord .sha1 Phase.initWs)
  | .sha256InitWs => .uop (uopWord .sha256 Phase.initWs)
  | .sha1Round => .uop (uopWord .sha1 Phase.round)
  | .sha256Round => .uop (uopWord .sha256 Phase.round)
  | .sha1Fold => .uop (uopWord .sha1 Phase.fold)
  | .sha256Fold => .uop (uopWord .sha256 Phase.fold)
  | .sha1Finalize => .uop (uopWord .sha1 Phase.finalize)
  | .sha256Finalize => .uop (uopWord .sha256 Phase.finalize)
  | .done alg => .uop (uopWord alg Phase.done)
  | .error alg => .uop (uopWord alg Phase.error)
  | .reservedPhase alg code => .uop (uopWord alg code)

/-! The opcode table's numbering. -/

/-- The form of a table row of `nbits` bits whose bits are `w`: a row of 32 bits is a command word, one of 8 bits a
micro-operation word, and the row with no bits the STATUS read. A length in between is a word with zeros above. -/
def fetchedOfTable (nbits w : Nat) : Option Fetched :=
  if nbits = 0 then some .statusRead
  else if nbits ≤ 8 then some (.uop (BitVec.ofNat 8 w))
  else if nbits ≤ 32 then some (.cmd (BitVec.ofNat 32 w))
  else none

/-- The instruction the decoder reads from a table row's word. -/
def decodeTableWord (nbits w : Nat) : Option Instr :=
  match fetchedOfTable nbits w with
  | none => none
  | some f =>
    match decode f with
    | .ok i => some i
    | .error _ => none

end Sys2Proof
end

