-- ==== Sys2Proof/Config.lean ====
section
/-! DEFINITION. What is fixed for the hardware (00_scope.md R10, R11). Values an implementation chooses for itself are not fixed
here: MSG_CAPACITY, the one open parameter, is a field of the state that no step writes, so that a claim holds for every capacity
(log entry 5). No instruction of this hardware has an undefined result (60_exceptions.md R244), so there is no free value. -/

namespace Sys2Proof

/-- The largest message hashed without a fault, and the largest value MSG_CAPACITY may have (R11, R122): 2^61 - 1 bytes. -/
def Config.maxMessageBytes : Nat := 2 ^ 61 - 1

end Sys2Proof
end

