-- ==== Sys2Proof/Machine/State.lean ====
section
/-! DEFINITION. The state of the machine as plain data: every register 10_state.md gives the engine, then what the host, the
platform and the sink will do next, so that the step is one deterministic function of the state. -/

namespace Sys2Proof.Machine

/-- The padded buffer P: the byte store of 20_memory.md R51, as (offset, byte) pairs at strictly rising offsets. An offset that is
not listed holds no byte: reading it faults (R37, log entry 2). -/
abbrev Memory := List Host.Cell

/-- The working registers A to H (10_state.md R30). -/
structure Regs where
  a : Word32
  b : Word32
  c : Word32
  d : Word32
  e : Word32
  f : Word32
  g : Word32
  h : Word32
  deriving DecidableEq, Repr

/-- The fields of STATUS (10_state.md R34). The reserved bits 3 and 31:9 are hardwired to 0 and need no storage. -/
structure Status where
  busy : Bool
  done : Bool
  err : Bool
  errcode : BitVec 4
  salg : Alg
  deriving DecidableEq, Repr

/-- The exceptions of 60_exceptions.md R240. No other exists (R244). -/
inductive Exception where
  | invalidInput
  | lengthOverflow
  | illegalCommand
  deriving DecidableEq, Repr

/-- The events of the output stream (30_encoding.md R80, R82): a Round snapshot with its index in the block, or a Digest. -/
inductive Event where
  | round (idx : Nat) (regs : List Word32)
  | digest (s : List Char)
  deriving DecidableEq, Repr

/-- What the host or the platform does on one turn (10_state.md R20). -/
inductive Turn where
  /-- Nothing: the engine takes its next step. -/
  | engine
  /-- The host writes the command word `c` to CMD with the message operand `msg` (R70). -/
  | write (c : Word32) (msg : List Byte)
  /-- The host reads STATUS (R104). -/
  | read
  /-- The pseudo-instruction `wait` of R84: read STATUS again and again until BUSY = 0. -/
  | wait
  /-- The platform asserts reset (R270). -/
  | reset
  deriving DecidableEq, Repr

/-- The sink's answers to the offers of an event (R281): `answers` to the next ones, oldest first (true accepts), and `rest` to
every one after them. -/
structure Sink where
  answers : List Bool
  rest : Bool
  deriving DecidableEq, Repr

structure State where
  /-- PHASE (R21), the program-counter analogue: a 4-bit code, R75. -/
  phase : BitVec 4
  /-- ALG (R22). -/
  alg : Alg
  /-- INV (R27). -/
  inv : Bool
  /-- MSG (R27, R52): the message bound by the last START. -/
  msg : List Byte
  /-- L (R27): the message's length in bytes. -/
  len : Nat
  /-- P (R28, R51): the padded buffer. -/
  p : Memory
  /-- N (R24): the number of blocks of P. -/
  n : Nat
  /-- BLK (R23): the index of the block being processed. -/
  blk : Nat
  /-- T (R25): the schedule-expansion index. -/
  t : Nat
  /-- I (R26): the round index. -/
  i : Nat
  /-- W[0..79] (R29): the message schedule. -/
  w : Vector Word32 80
  /-- A to H (R30). -/
  regs : Regs
  /-- ACC[0..7] (R31): the hash accumulator. -/
  acc : Vector Word32 8
  /-- STATUS (R34). -/
  status : Status
  /-- OUT (R35): every event emitted, oldest first. -/
  out : List Event
  /-- The host's and the platform's turns still to come, oldest first; after the last one the engine moves (log entry 3). -/
  host : List Turn
  /-- The message operand that travels with the command write (R70, R79; log entry 18). -/
  msgIn : List Byte
  /-- The sink's answers (R281; log entry 4). -/
  sink : Sink
  /-- What each of the host's reads of STATUS returned, oldest first (R104; log entry 8). -/
  statusReads : List Word32
  /-- MSG_CAPACITY (R11, R106): a parameter of the implementation, written by no step (log entry 5). -/
  msgCapacity : Nat
  deriving DecidableEq, Repr

/-- The machine right after reset (R38): PHASE = IDLE, STATUS = 0, OUT empty, P with nothing listed. For every other register the
spec gives no value, and the model names zero (for ALG the code 0, SHA1), or the least value of its range where zero is outside it
(T = 16, N = 1): DESIGN CHOICE, unsafe, log entry 1. The host has nothing
to do, the sink accepts, and the implementation holds every message that can be hashed: DESIGN CHOICE, log entries 3, 4, 5. -/
def State.reset : State where
  phase := 0x0
  alg := .sha1
  inv := false
  msg := []
  len := 0
  p := []
  n := 1
  blk := 0
  t := 16
  i := 0
  w := Vector.replicate 80 0
  regs := ⟨0, 0, 0, 0, 0, 0, 0, 0⟩
  acc := Vector.replicate 8 0
  status := ⟨false, false, false, 0, .sha1⟩
  out := []
  host := []
  msgIn := []
  sink := ⟨[], true⟩
  statusReads := []
  msgCapacity := Config.maxMessageBytes

/-- Why the machine stops with an error. All are safe: the machine stops where the spec gives the situation no meaning. -/
inductive Fault where
  /-- PHASE holds a reserved code 0xC to 0xF ("it must fault, not step", R76). Raised by the step, by RESERVED_PHASE and by a CMD
  write in such a state. Safe: no rule writes such a code. -/
  | reservedPhase
  /-- ERRCODE holds a reserved value 4 to 15 (R240, U11 of 93_implementation_defined.md). Raised by the step. Safe: no rule writes
  such a value. -/
  | reservedErrcode
  /-- A message byte at or beyond the end of MSG is read (R16). Raised by PAD when L exceeds the bytes of MSG. Safe: START writes
  both together. -/
  | messageReadOutOfRange
  /-- A byte of P that PAD did not write is read (R16, R57). Raised by LOAD_BLOCK. Safe: R57 derives that it cannot occur. -/
  | paddedReadOutOfRange
  /-- EXPAND with T outside 16..NW-1, the range R141 and R143 are given for. Raised by both EXPAND. Safe: no run reaches it. -/
  | scheduleIndexOutOfRange
  /-- ROUND with I at or above NR, beyond the range R162 and R192 are given for. Raised by both ROUND. Safe: no run reaches it. -/
  | roundIndexOutOfRange
  deriving DecidableEq, Repr

/-- Why the model has no step. All are safe: no claim covers what an implementation does there. -/
inductive Refusal where
  /-- An instruction without a meaning. Raised by no arm of the finished model. Safe. -/
  | notModelled (mnemonic : String)
  /-- A CMD write while BUSY = 1 (R105: "The model refuses it"). Raised by START.SHA1, START.SHA256 and ILLEGAL. Safe. -/
  | commandWhileBusy
  /-- A START whose message is longer than MSG_CAPACITY (R106: "refused by the model"). Raised by both START. Safe. -/
  | messageOverCapacity
  /-- A word that the decoder rejects is run. Raised by the step; the sequencer names no such word (R75). Safe. -/
  | notAnInstruction
  deriving DecidableEq, Repr

end Sys2Proof.Machine
end

