-- ==== Sys2Proof/Machine/Flags.lean ====
section
/-! DEFINITION. The STATUS word of 10_state.md R34 and its values at each place where a rule writes it. -/

namespace Sys2Proof.Machine

/-- The 32-bit word a read of STATUS returns: BUSY bit 0, DONE bit 1, ERR bit 2, bit 3 zero, ERRCODE bits 7:4, SALG bit 8, bits
31:9 zero. -/
def statusWord (st : Status) : Word32 :=
  0#23 ++ st.salg.bit ++ st.errcode ++ 0#1 ++ BitVec.ofBool st.err ++ BitVec.ofBool st.done ++ BitVec.ofBool st.busy

/-- What a legal START writes (R101, R102). -/
def statusRunning (alg : Alg) : Status :=
  { busy := true, done := false, err := false, errcode := 0, salg := alg }

/-- What FINALIZE writes (R220, R221). -/
def statusFinished (alg : Alg) : Status :=
  { busy := false, done := true, err := false, errcode := 0, salg := alg }

/-- The code of an exception (R240). -/
def exceptionCode : Exception → BitVec 4
  | .invalidInput => 1
  | .lengthOverflow => 2
  | .illegalCommand => 3

/-- What the error entry writes (R250): SALG is unchanged. -/
def statusFailed (x : Exception) (st : Status) : Status :=
  { st with busy := false, done := false, err := true, errcode := exceptionCode x }

/-- The values 4 to 15 of ERRCODE are reserved (R240). -/
def errcodeReserved (st : Status) : Bool :=
  4 ≤ st.errcode.toNat

end Sys2Proof.Machine
end

