-- ==== Sys2Proof/Machine/Operands.lean ====
section
/-! DEFINITION. The values the rules compute with: the word operators of 00_scope.md R14, the byte-sequence primitives of R15, the
parameters of R10 that depend on the algorithm, the round functions and the schedule functions, and the digits of the digest. -/

namespace Sys2Proof.Machine

/-! Parameters (R10, R22). -/

/-- NW, the schedule length. -/
def scheduleLength : Alg → Nat
  | .sha1 => 80
  | .sha256 => 64

/-- NR, the rounds per block. -/
def roundCount : Alg → Nat
  | .sha1 => 80
  | .sha256 => 64

/-- NREG, the working registers an algorithm uses. -/
def registerCount : Alg → Nat
  | .sha1 => 5
  | .sha256 => 8

/-! Word operators (R14). -/

/-- `shr(x, n)`, the logical right shift, zero-filled. -/
def shr (x : Word32) (n : Nat) : Word32 :=
  x >>> n

/-- `rotl(x, n)` for 1 <= n <= 31. -/
def rotl (x : Word32) (n : Nat) : Word32 :=
  (x <<< n) ||| shr x (32 - n)

/-- `rotr(x, n)` for 1 <= n <= 31. -/
def rotr (x : Word32) (n : Nat) : Word32 :=
  shr x n ||| (x <<< (32 - n))

/-! Byte sequences (R15). -/

/-- `be32`: the first byte is the most significant. -/
def be32 (b0 b1 b2 b3 : Byte) : Word32 :=
  b0 ++ b1 ++ b2 ++ b3

/-- `be64bytes(v)`: v[63:56] first, v[7:0] last. -/
def be64bytes (v : Word64) : List Byte :=
  [v.extractLsb' 56 8, v.extractLsb' 48 8, v.extractLsb' 40 8, v.extractLsb' 32 8,
    v.extractLsb' 24 8, v.extractLsb' 16 8, v.extractLsb' 8 8, v.extractLsb' 0 8]

/-! SHA-1 (R165). -/

/-- `f1(i, B, C, D)`: Ch, Parity, Maj, Parity, twenty rounds each. -/
def f1 (i : Nat) (b c d : Word32) : Word32 :=
  if i < 20 then (b &&& c) ||| (~~~b &&& d)
  else if i < 40 then b ^^^ c ^^^ d
  else if i < 60 then (b &&& c) ||| (b &&& d) ||| (c &&& d)
  else b ^^^ c ^^^ d

/-! SHA-256 (R142, R195). -/

/-- The schedule function `sigma0` (R142). -/
def smallSigma0 (x : Word32) : Word32 :=
  rotr x 7 ^^^ rotr x 18 ^^^ shr x 3

/-- The schedule function `sigma1` (R142). -/
def smallSigma1 (x : Word32) : Word32 :=
  rotr x 17 ^^^ rotr x 19 ^^^ shr x 10

/-- `Sigma1` (R195), the source's S1. -/
def bigSigma1 (e : Word32) : Word32 :=
  rotr e 6 ^^^ rotr e 11 ^^^ rotr e 25

/-- `Sigma0` (R195), the source's S0. -/
def bigSigma0 (a : Word32) : Word32 :=
  rotr a 2 ^^^ rotr a 13 ^^^ rotr a 22

/-- `Ch` (R195). -/
def ch (e f g : Word32) : Word32 :=
  (e &&& f) ^^^ (~~~e &&& g)

/-- `Maj` (R195). -/
def maj (a b c : Word32) : Word32 :=
  (a &&& b) ^^^ (a &&& c) ^^^ (b &&& c)

/-! Digest digits (R222, R83). -/

def hexDigits : Vector Char 16 :=
  #v['0', '1', '2', '3', '4', '5', '6', '7', '8', '9', 'a', 'b', 'c', 'd', 'e', 'f']

/-- `hexdigit(n)`. -/
def hexdigit (n : BitVec 4) : Char :=
  hexDigits[n.toNat]'n.isLt

/-- `hex8(v)`: eight lowercase digits, the most significant nibble first. -/
def hex8 (v : Word32) : List Char :=
  [hexdigit (v.extractLsb' 28 4), hexdigit (v.extractLsb' 24 4), hexdigit (v.extractLsb' 20 4), hexdigit (v.extractLsb' 16 4),
    hexdigit (v.extractLsb' 12 4), hexdigit (v.extractLsb' 8 4), hexdigit (v.extractLsb' 4 4), hexdigit (v.extractLsb' 0 4)]

/-- The byte of an ASCII character (R83; R84 writes message operands with it). -/
def asciiByte (c : Char) : Byte :=
  BitVec.ofNat 8 c.toNat

/-- The bytes of a string on a byte interface (R83), and of a quoted message operand (R84). -/
def asciiBytes (s : List Char) : List Byte :=
  s.map asciiByte

end Sys2Proof.Machine
end

