-- ==== Sys2Proof/Machine/Ops.lean ====
section
/-! DEFINITION. The named operations over the stores and the registers that the meanings share: reads and writes of P and MSG, the
schedule's entries, the error entry and the way out of it, the command port's gate, and the emission of an event. -/

namespace Sys2Proof.Machine

/-- What a step answers. -/
abbrev Result := Host.Outcome State Fault Refusal

/-! The padded buffer (00_scope.md R16, 20_memory.md R51 to R58). -/

/-- The canonical form: strictly rising offsets, so no offset is listed twice. An unlisted offset has no value, so there is no entry
that equals what an unlisted one reads as. -/
abbrev Memory.wf (m : Memory) : Prop :=
  m.Pairwise fun x y => x.1 < y.1

/-- `MemRead(a, 1)`: byte P[a], or none where P holds no byte. -/
def Memory.read : Memory → Nat → Option Byte
  | [], _ => none
  | (b, v) :: m, a => if a = b then some v else Memory.read m a

/-- `MemWrite(a, 1, v)`. -/
def Memory.write : Memory → Nat → Byte → Memory
  | [], a, v => [(a, v)]
  | (b, u) :: m, a, v =>
    if a < b then (a, v) :: (b, u) :: m
    else if a = b then (a, v) :: m
    else (b, u) :: Memory.write m a v

/-- One MemWrite for each byte, at rising offsets from `a`. -/
def Memory.writeBytes : Memory → Nat → List Byte → Memory
  | m, _, [] => m
  | m, a, v :: vs => Memory.writeBytes (m.write a v) (a + 1) vs

/-- `MemRead(a, 4)`, big-endian (R53). -/
def Memory.readWord (m : Memory) (a : Nat) : Option Word32 :=
  match m.read a, m.read (a + 1), m.read (a + 2), m.read (a + 3) with
  | some b0, some b1, some b2, some b3 => some (be32 b0 b1 b2 b3)
  | _, _, _, _ => none

/-- `count` words of P, four bytes apart from offset `a`. -/
def Memory.readWords (m : Memory) : Nat → Nat → Option (List Word32)
  | _, 0 => some []
  | a, count + 1 =>
    match m.readWord a, Memory.readWords m (a + 4) count with
    | some v, some vs => some (v :: vs)
    | _, _ => none

/-! The message (R16, R27). -/

/-- `MsgRead(k)` for k = 0 .. L-1, in offset order; none where MSG has fewer than L bytes. -/
def messageBytes (s : State) : Option (List Byte) :=
  if s.len ≤ s.msg.length then some (s.msg.take s.len) else none

/-! The message schedule (10_state.md R29). -/

/-- W with its first entries replaced by `ws`; the entries beyond keep their values (R140). -/
def setFirstWords (w : Vector Word32 80) (ws : List Word32) : Vector Word32 80 :=
  Vector.ofFn fun j => ws[j.val]?.getD w[j]

/-! Exceptions (60_exceptions.md R250, R251). -/

/-- The error entry `raise x` (R250): STATUS records the exception, control goes to the ERROR phase, nothing else changes and no
event is appended. -/
def raise (x : Exception) (s : State) : State :=
  { s with status := statusFailed x s.status, phase := Phase.error }

/-- What an accepted START does (R101, R102). It is also the only return from an exception but reset (R251): it clears ERR and
ERRCODE and begins as from IDLE. With INV = 1 the message operand is ignored and MSG and L keep their values. -/
def beginComputation (alg : Alg) (inv : Bool) (s : State) : State :=
  { s with
    alg := alg
    inv := inv
    msg := if inv then s.msg else s.msgIn
    len := if inv then s.len else s.msgIn.length
    status := statusRunning alg
    phase := Phase.check }

/-! The command port (40_host_commands.md R100, R105, R106). -/

/-- The phases in which the engine takes no step and a command is accepted (R100). -/
def acceptsCommand (phase : BitVec 4) : Bool :=
  phase == Phase.idle || phase == Phase.done || phase == Phase.error

/-- The codes 0xC to 0xF (R76). -/
def phaseReserved (phase : BitVec 4) : Bool :=
  12 ≤ phase.toNat

/-- A CMD write: `accepted` in IDLE, DONE and ERROR; refused while a computation runs (R105); a fault where PHASE has no meaning
(R76). -/
def onCommand (s : State) (accepted : Result) : Result :=
  if acceptsCommand s.phase then accepted
  else if phaseReserved s.phase then .fault .reservedPhase
  else .refused .commandWhileBusy

/-- R106: MSG_CAPACITY < L <= 2^61 - 1. A longer message is never refused for capacity. -/
def overCapacity (s : State) : Bool :=
  s.msgCapacity < s.msgIn.length && s.msgIn.length ≤ Config.maxMessageBytes

/-- A legal START. With INV = 1 the message operand is ignored (R72), so its length is not held against MSG_CAPACITY (log entry 6). -/
def startCommand (alg : Alg) (inv : Bool) (s : State) : Result :=
  onCommand s (if !inv && overCapacity s then .refused .messageOverCapacity else .next (beginComputation alg inv s))

/-! The sink (70_reset_and_hazards.md R281). -/

/-- The sink's answer to the next offer. -/
def Sink.accepts (k : Sink) : Bool :=
  match k.answers with
  | [] => k.rest
  | answer :: _ => answer

/-- The sink once it has answered an offer. -/
def Sink.answered (k : Sink) : Sink :=
  { k with answers := k.answers.tail }

/-- An emitting step from `s` whose effect on the engine is `t` and whose event is `e`: it happens only when the sink accepts the
event; otherwise the engine holds in `s`, its registers unchanged (R281). -/
def emitOrHold (e : Event) (t s : State) : Result :=
  if s.sink.accepts then .next { t with out := s.out ++ [e], sink := s.sink.answered }
  else .next { s with sink := s.sink.answered }

/-! Reset (70_reset_and_hazards.md R270). -/

/-- Reset puts every register to its value in `State.reset`. The events already appended remain in OUT; the host, the sink, what
the host has read and the implementation's capacity are not the engine's (log entry 14). -/
def resetEngine (s : State) : State :=
  { State.reset with
    out := s.out
    host := s.host
    msgIn := s.msgIn
    sink := s.sink
    statusReads := s.statusReads
    msgCapacity := s.msgCapacity }

/-! The next step (10_state.md R20, 30_encoding.md R75). -/

/-- The situations to which the spec gives no meaning whoever moves: a reserved PHASE (R76) or ERRCODE (R240, U11). -/
def meaninglessState (s : State) : Option Fault :=
  if phaseReserved s.phase then some .reservedPhase
  else if errcodeReserved s.status then some .reservedErrcode
  else none

/-- What the next turn (but a reset) presents to the decoder, and the state the instruction runs in: the host's turn is used up,
and a command write puts its message operand on the port. Without a host's turn the engine moves, and its instruction is the one
`(ALG << 4) | PHASE` names. A `wait` reads STATUS and, while BUSY = 1, gives the engine a turn and reads again (log entry 16). -/
def presented (s : State) : Fetched × State :=
  match s.host with
  | .write c msg :: rest => (.cmd c, { s with host := rest, msgIn := msg })
  | .read :: rest => (.statusRead, { s with host := rest })
  | .wait :: rest => (.statusRead, { s with host := if s.status.busy then .engine :: .wait :: rest else rest })
  | .engine :: rest => (.uop (uopWord s.alg s.phase), { s with host := rest })
  | .reset :: _ => (.uop (uopWord s.alg s.phase), s)
  | [] => (.uop (uopWord s.alg s.phase), s)

end Sys2Proof.Machine
end

