-- ==== Sys2Proof/Machine/Finalizer.lean ====
section
/-! DEFINITION. The digest finalizer and the phases without an engine step (45_finalizer.md, 60_exceptions.md R251, 30_encoding.md
R76): SHA1.FINALIZE, SHA256.FINALIZE, IDLE, DONE, ERROR, RESERVED_PHASE. -/

namespace Sys2Proof.Machine

/-- The 40 characters of a SHA-1 digest (R220). -/
def sha1Digest (acc : Vector Word32 8) : List Char :=
  hex8 acc[0] ++ hex8 acc[1] ++ hex8 acc[2] ++ hex8 acc[3] ++ hex8 acc[4]

/-- The 64 characters of a SHA-256 digest (R221). -/
def sha256Digest (acc : Vector Word32 8) : List Char :=
  hex8 acc[0] ++ hex8 acc[1] ++ hex8 acc[2] ++ hex8 acc[3] ++ hex8 acc[4] ++ hex8 acc[5] ++ hex8 acc[6] ++ hex8 acc[7]

/-- SHA1.FINALIZE (R220). -/
def execSha1Finalize (s : State) : Result :=
  emitOrHold (.digest (sha1Digest s.acc)) { s with status := statusFinished .sha1, phase := Phase.done } s

/-- SHA256.FINALIZE (R221). -/
def execSha256Finalize (s : State) : Result :=
  emitOrHold (.digest (sha256Digest s.acc)) { s with status := statusFinished .sha256, phase := Phase.done } s

/-- IDLE (R224): the engine takes no step; every register keeps its value (R265). The model's step leaves the state as it is
(log entry 9). -/
def execIdle (s : State) : Result :=
  .next s

/-- DONE (R223): the engine takes no step; STATUS holds DONE = 1. -/
def execDone (s : State) : Result :=
  .next s

/-- ERROR (R251): the engine takes no step; STATUS keeps ERR = 1 and ERRCODE. -/
def execError (s : State) : Result :=
  .next s

/-- RESERVED_PHASE (R76): "it must fault, not step". -/
def execReservedPhase (_ : State) : Result :=
  .fault .reservedPhase

end Sys2Proof.Machine
end

