-- ==== Sys2Proof/Machine/HostCommands.lean ====
section
/-! DEFINITION. The host's instructions (40_host_commands.md): START.SHA1, START.SHA256, ILLEGAL, READ_STATUS. -/

namespace Sys2Proof.Machine

/-- START.SHA1 (R101). -/
def execStartSha1 (inv : Bool) (s : State) : Result :=
  startCommand .sha1 inv s

/-- START.SHA256 (R102). -/
def execStartSha256 (inv : Bool) (s : State) : Result :=
  startCommand .sha256 inv s

/-- A command word that decodes to ILLEGAL (R103): the message operand is ignored, IllegalCommand is raised. -/
def execIllegal (s : State) : Result :=
  onCommand s (.next (raise .illegalCommand s))

/-- READ_STATUS (R104): the host receives the STATUS word; the engine's state is not touched. -/
def execReadStatus (s : State) : Result :=
  .next { s with statusReads := s.statusReads ++ [statusWord s.status] }

end Sys2Proof.Machine
end

