-- ==== Sys2Proof/Machine/Padder.lean ====
section
/-! DEFINITION. The message padder (41_padder.md): CHECK and PAD, the same for both algorithms. -/

namespace Sys2Proof.Machine

/-- CHECK (R120). -/
def execCheck (s : State) : Result :=
  if s.inv then .next (raise .invalidInput s) else .next { s with phase := Phase.pad }

/-- k = (55 - L) mod 64, the number of zero bytes (R121). -/
def zeroCount (len : Nat) : Nat :=
  ((55 - (len : Int)) % 64).toNat

/-- The padded message (R121): the message, 0x80, k zero bytes, and the bit length as 8 big-endian bytes. -/
def padBytes (msg : List Byte) : List Byte :=
  msg ++ [0x80] ++ List.replicate (zeroCount msg.length) 0x00 ++ be64bytes (BitVec.ofNat 64 (8 * msg.length))

/-- P as PAD builds it: one MemWrite for each byte of the padded message, from offset 0 of an empty buffer (log entry 15). -/
def paddedBuffer (msg : List Byte) : Memory :=
  Memory.writeBytes [] 0 (padBytes msg)

/-- N for a message of `len` bytes (R121). -/
def blockCount (len : Nat) : Nat :=
  (len + 1 + zeroCount len + 8) / 64

/-- PAD (R121, R122). -/
def execPad (s : State) : Result :=
  if 2 ^ 61 ≤ s.len then .next (raise .lengthOverflow s)
  else
    match messageBytes s with
    | some bytes => .next { s with p := paddedBuffer bytes, n := blockCount s.len, phase := Phase.initAcc }
    | none => .fault .messageReadOutOfRange

end Sys2Proof.Machine
end

