-- ==== Sys2Proof/Machine/Schedule.lean ====
section
/-! DEFINITION. The block scheduler and the message-schedule expander (42_schedule.md): LOAD_BLOCK, SHA1.EXPAND, SHA256.EXPAND. -/

namespace Sys2Proof.Machine

/-- LOAD_BLOCK (R140). -/
def execLoadBlock (s : State) : Result :=
  match s.p.readWords (64 * s.blk) 16 with
  | some words => .next { s with w := setFirstWords s.w words, t := 16, phase := Phase.expand }
  | none => .fault .paddedReadOutOfRange

/-- The next word of the SHA-1 schedule (R141), for T in 16..79. -/
def sha1ScheduleWord (w : Vector Word32 80) (t : Nat) (h : 16 ≤ t ∧ t < 80) : Word32 :=
  rotl (w[t - 3]'(by omega) ^^^ w[t - 8]'(by omega) ^^^ w[t - 14]'(by omega) ^^^ w[t - 16]'(by omega)) 1

/-- SHA1.EXPAND (R141). -/
def execSha1Expand (s : State) : Result :=
  if h : 16 ≤ s.t ∧ s.t < 80 then
    .next { s with
      w := s.w.set s.t (sha1ScheduleWord s.w s.t h) h.2
      t := s.t + 1
      phase := if s.t + 1 = 80 then Phase.initWs else Phase.expand }
  else .fault .scheduleIndexOutOfRange

/-- The next word of the SHA-256 schedule (R143), for T in 16..63. -/
def sha256ScheduleWord (w : Vector Word32 80) (t : Nat) (h : 16 ≤ t ∧ t < 64) : Word32 :=
  w[t - 16]'(by omega) + smallSigma0 (w[t - 15]'(by omega)) + w[t - 7]'(by omega) + smallSigma1 (w[t - 2]'(by omega))

/-- SHA256.EXPAND (R143). -/
def execSha256Expand (s : State) : Result :=
  if h : 16 ≤ s.t ∧ s.t < 64 then
    .next { s with
      w := s.w.set s.t (sha256ScheduleWord s.w s.t h) (Nat.lt_trans h.2 (by decide))
      t := s.t + 1
      phase := if s.t + 1 = 64 then Phase.initWs else Phase.expand }
  else .fault .scheduleIndexOutOfRange

end Sys2Proof.Machine
end

