-- ==== Sys2Proof/Machine/Constants.lean ====
section
/-! DEFINITION. The read-only tables of 20_memory.md R66: K1 (R164) and K (R194). The initial hash values IV1 and IV2 stand in the
meanings that load them (R160, R190). -/

namespace Sys2Proof.Machine

/-- `K1(i)` of R164, twenty rounds each. -/
def k1 (i : Nat) : Word32 :=
  if i < 20 then 0x5A827999
  else if i < 40 then 0x6ED9EBA1
  else if i < 60 then 0x8F1BBCDC
  else 0xCA62C1D6

/-- K[0..15] of R194. -/
def kTable0 : List Word32 :=
  [0x428A2F98, 0x71374491, 0xB5C0FBCF, 0xE9B5DBA5, 0x3956C25B, 0x59F111F1, 0x923F82A4, 0xAB1C5ED5,
    0xD807AA98, 0x12835B01, 0x243185BE, 0x550C7DC3, 0x72BE5D74, 0x80DEB1FE, 0x9BDC06A7, 0xC19BF174]

/-- K[16..31]. -/
def kTable1 : List Word32 :=
  [0xE49B69C1, 0xEFBE4786, 0x0FC19DC6, 0x240CA1CC, 0x2DE92C6F, 0x4A7484AA, 0x5CB0A9DC, 0x76F988DA,
    0x983E5152, 0xA831C66D, 0xB00327C8, 0xBF597FC7, 0xC6E00BF3, 0xD5A79147, 0x06CA6351, 0x14292967]

/-- K[32..47]. -/
def kTable2 : List Word32 :=
  [0x27B70A85, 0x2E1B2138, 0x4D2C6DFC, 0x53380D13, 0x650A7354, 0x766A0ABB, 0x81C2C92E, 0x92722C85,
    0xA2BFE8A1, 0xA81A664B, 0xC24B8B70, 0xC76C51A3, 0xD192E819, 0xD6990624, 0xF40E3585, 0x106AA070]

/-- K[48..63]. -/
def kTable3 : List Word32 :=
  [0x19A4C116, 0x1E376C08, 0x2748774C, 0x34B0BCB5, 0x391C0CB3, 0x4ED8AA4A, 0x5B9CCA4F, 0x682E6FF3,
    0x748F82EE, 0x78A5636F, 0x84C87814, 0x8CC70208, 0x90BEFFFA, 0xA4506CEB, 0xBEF9A3F7, 0xC67178F2]

/-- The table K[0..63] of R194. -/
def kTable : List Word32 :=
  kTable0 ++ kTable1 ++ kTable2 ++ kTable3

theorem kTable_length : kTable.length = 64 := by decide

/-- `K[i]` for a round index of SHA-256. -/
def k256 (i : Nat) (h : i < 64) : Word32 :=
  kTable[i]'(by rw [kTable_length]; exact h)

end Sys2Proof.Machine
end

