-- ==== Sys2Proof/Machine/Sha1.lean ====
section
/-! DEFINITION. The SHA-1 compression pipeline (43_sha1_compress.md): SHA1.INIT_ACC, SHA1.INIT_WS, SHA1.ROUND, SHA1.FOLD. -/

namespace Sys2Proof.Machine

/-- SHA1.INIT_ACC (R160): ACC[5..7] are not written. -/
def execSha1InitAcc (s : State) : Result :=
  .next { s with
    acc := #v[0x67452301, 0xEFCDAB89, 0x98BADCFE, 0x10325476, 0xC3D2E1F0, s.acc[5], s.acc[6], s.acc[7]]
    blk := 0
    phase := Phase.loadBlock }

/-- SHA1.INIT_WS (R161): F, G and H are not written. -/
def execSha1InitWs (s : State) : Result :=
  .next { s with
    regs := { s.regs with a := s.acc[0], b := s.acc[1], c := s.acc[2], d := s.acc[3], e := s.acc[4] }
    i := 0
    phase := Phase.round }

/-- The registers after round `i` with schedule word `wi` (R162). F, G and H are not written. -/
def sha1RoundRegs (i : Nat) (wi : Word32) (r : Regs) : Regs :=
  { r with
    a := rotl r.a 5 + f1 i r.b r.c r.d + r.e + k1 i + wi
    b := r.a
    c := rotl r.b 30
    d := r.c
    e := r.d }

/-- The registers a SHA-1 snapshot carries, in order (R80). -/
def sha1Snapshot (r : Regs) : List Word32 :=
  [r.a, r.b, r.c, r.d, r.e]

/-- SHA1.ROUND (R162), for I in 0..79. -/
def execSha1Round (s : State) : Result :=
  if h : s.i < 80 then
    let regs := sha1RoundRegs s.i s.w[s.i] s.regs
    emitOrHold (.round (s.i + 1) (sha1Snapshot regs))
      { s with regs := regs, i := s.i + 1, phase := if s.i + 1 = 80 then Phase.fold else Phase.round } s
  else .fault .roundIndexOutOfRange

/-- SHA1.FOLD (R163): ACC[5..7] are not written. -/
def execSha1Fold (s : State) : Result :=
  .next { s with
    acc := #v[s.acc[0] + s.regs.a, s.acc[1] + s.regs.b, s.acc[2] + s.regs.c, s.acc[3] + s.regs.d, s.acc[4] + s.regs.e,
      s.acc[5], s.acc[6], s.acc[7]]
    blk := s.blk + 1
    phase := if s.blk + 1 = s.n then Phase.finalize else Phase.loadBlock }

end Sys2Proof.Machine
end

