-- ==== Sys2Proof/Machine/Sha256.lean ====
section
/-! DEFINITION. The SHA-256 compression pipeline (44_sha256_compress.md): SHA256.INIT_ACC, SHA256.INIT_WS, SHA256.ROUND,
SHA256.FOLD. -/

namespace Sys2Proof.Machine

/-- SHA256.INIT_ACC (R190). -/
def execSha256InitAcc (s : State) : Result :=
  .next { s with
    acc := #v[0x6A09E667, 0xBB67AE85, 0x3C6EF372, 0xA54FF53A, 0x510E527F, 0x9B05688C, 0x1F83D9AB, 0x5BE0CD19]
    blk := 0
    phase := Phase.loadBlock }

/-- SHA256.INIT_WS (R191). -/
def execSha256InitWs (s : State) : Result :=
  .next { s with
    regs := ⟨s.acc[0], s.acc[1], s.acc[2], s.acc[3], s.acc[4], s.acc[5], s.acc[6], s.acc[7]⟩
    i := 0
    phase := Phase.round }

/-- `temp1` of R192, with the round constant `ki` and the schedule word `wi`. -/
def sha256Temp1 (ki wi : Word32) (r : Regs) : Word32 :=
  r.h + bigSigma1 r.e + ch r.e r.f r.g + ki + wi

/-- `temp2` of R192. -/
def sha256Temp2 (r : Regs) : Word32 :=
  bigSigma0 r.a + maj r.a r.b r.c

/-- The registers after a round (R192). E takes `D + temp1` only (R196, 90_conflicts.md C1). -/
def sha256RoundRegs (ki wi : Word32) (r : Regs) : Regs where
  a := sha256Temp1 ki wi r + sha256Temp2 r
  b := r.a
  c := r.b
  d := r.c
  e := r.d + sha256Temp1 ki wi r
  f := r.e
  g := r.f
  h := r.g

/-- The registers a SHA-256 snapshot carries, in order (R80). -/
def sha256Snapshot (r : Regs) : List Word32 :=
  [r.a, r.b, r.c, r.d, r.e, r.f, r.g, r.h]

/-- SHA256.ROUND (R192), for I in 0..63. -/
def execSha256Round (s : State) : Result :=
  if h : s.i < 64 then
    let regs := sha256RoundRegs (k256 s.i h) (s.w[s.i]'(Nat.lt_trans h (by decide))) s.regs
    emitOrHold (.round (s.i + 1) (sha256Snapshot regs))
      { s with regs := regs, i := s.i + 1, phase := if s.i + 1 = 64 then Phase.fold else Phase.round } s
  else .fault .roundIndexOutOfRange

/-- SHA256.FOLD (R193). -/
def execSha256Fold (s : State) : Result :=
  .next { s with
    acc := #v[s.acc[0] + s.regs.a, s.acc[1] + s.regs.b, s.acc[2] + s.regs.c, s.acc[3] + s.regs.d,
      s.acc[4] + s.regs.e, s.acc[5] + s.regs.f, s.acc[6] + s.regs.g, s.acc[7] + s.regs.h]
    blk := s.blk + 1
    phase := if s.blk + 1 = s.n then Phase.finalize else Phase.loadBlock }

end Sys2Proof.Machine
end

