-- ==== Sys2Proof/Machine/Dispatch.lean ====
section
/-! DEFINITION. One arm per instruction. -/

namespace Sys2Proof.Machine

def exec (i : Instr) (s : State) : Host.Outcome State Fault Refusal :=
  match i with
  | .startSha1 inv => Sys2Proof.Machine.execStartSha1 inv s
  | .startSha256 inv => Sys2Proof.Machine.execStartSha256 inv s
  | .illegal _ => Sys2Proof.Machine.execIllegal s
  | .readStatus => Sys2Proof.Machine.execReadStatus s
  | .idle _ => Sys2Proof.Machine.execIdle s
  | .check _ => Sys2Proof.Machine.execCheck s
  | .pad _ => Sys2Proof.Machine.execPad s
  | .sha1InitAcc => Sys2Proof.Machine.execSha1InitAcc s
  | .sha256InitAcc => Sys2Proof.Machine.execSha256InitAcc s
  | .loadBlock _ => Sys2Proof.Machine.execLoadBlock s
  | .sha1Expand => Sys2Proof.Machine.execSha1Expand s
  | .sha256Expand => Sys2Proof.Machine.execSha256Expand s
  | .sha1InitWs => Sys2Proof.Machine.execSha1InitWs s
  | .sha256InitWs => Sys2Proof.Machine.execSha256InitWs s
  | .sha1Round => Sys2Proof.Machine.execSha1Round s
  | .sha256Round => Sys2Proof.Machine.execSha256Round s
  | .sha1Fold => Sys2Proof.Machine.execSha1Fold s
  | .sha256Fold => Sys2Proof.Machine.execSha256Fold s
  | .sha1Finalize => Sys2Proof.Machine.execSha1Finalize s
  | .sha256Finalize => Sys2Proof.Machine.execSha256Finalize s
  | .done _ => Sys2Proof.Machine.execDone s
  | .error _ => Sys2Proof.Machine.execError s
  | .reservedPhase _ _ => Sys2Proof.Machine.execReservedPhase s

end Sys2Proof.Machine
end

