-- ==== Sys2Proof/Machine/Step.lean ====
section
/-! DEFINITION. One step of the machine, and the placing of an instruction where the next step takes it. -/

namespace Sys2Proof.Machine

/-- One step (10_state.md R20): a reset (R270) may come between any two steps and is taken first; a state without a meaning faults
(R76, U11); otherwise the instruction the turn presents is decoded and run. -/
def step (s : State) : Host.Outcome State Fault Refusal :=
  match s.host with
  | .reset :: rest => .next (resetEngine { s with host := rest })
  | _ =>
    match meaninglessState s with
    | some fault => .fault fault
    | none =>
      match decode (presented s).1 with
      | .ok i => exec i (presented s).2
      | .error _ => .refused .notAnInstruction

/-- `s` with a table row's instruction placed where the next step takes it (log entry 7): a command word or a STATUS read as the
host's next turn (with an empty message operand), a micro-operation word as PHASE and ALG with the next turn the engine's. PHASE
and ALG cannot hold a word whose bits 7:5 are not zero; nothing is placed for one. -/
def State.withFetchWord (s : State) (nbits w : Nat) : State :=
  match fetchedOfTable nbits w with
  | some (.cmd c) => { s with host := .write c [] :: s.host }
  | some .statusRead => { s with host := .read :: s.host }
  | some (.uop u) =>
    if u.extractLsb' 5 3 = 0#3 then
      { s with phase := u.extractLsb' 0 4, alg := Alg.ofBit (u.extractLsb' 4 1), host := .engine :: s.host }
    else s
  | none => s

end Sys2Proof.Machine
end

