-- ==== Sys2Proof/Safety.lean ====
section
/-! DEFINITION. The terms claims use: the invariant of the engine, the agreement of two states on the registers that can still be
read, and the events of a whole computation written as a function of the algorithm and the message. -/

namespace Sys2Proof.Machine

/-! The invariant. -/

/-- What holds in every state a run can reach. Phases by code: CHECK to FINALIZE are 1 to 9. -/
structure Inv (s : State) : Prop where
  /-- P keeps its canonical form. -/
  buffer_canonical : s.p.wf
  /-- PHASE is none of the reserved codes (R76). -/
  phase_legal : s.phase.toNat < 12
  /-- BUSY is 1 in CHECK to FINALIZE (R34). -/
  busy_iff : s.status.busy = decide (1 ≤ s.phase.toNat ∧ s.phase.toNat ≤ 9)
  /-- DONE is 1 in DONE (R34, R223). -/
  done_iff : s.status.done = decide (s.phase = Phase.done)
  /-- ERR is 1 in ERROR (R34, R251). -/
  err_iff : s.status.err = decide (s.phase = Phase.error)
  /-- ERRCODE is an exception's code when ERR = 1, and 0 otherwise (R34, R240). -/
  errcode_range : if s.status.err then 1 ≤ s.status.errcode.toNat ∧ s.status.errcode.toNat ≤ 3 else s.status.errcode = 0
  /-- SALG is ALG from the START to the end of the computation (R34). -/
  salg_eq : s.status.busy ∨ s.status.done → s.status.salg = s.alg
  /-- MSG_CAPACITY is in its range (R11). -/
  capacity_range : s.msgCapacity ≤ Config.maxMessageBytes
  /-- MSG has length L from the START to PAD (R27). -/
  message_bound : s.phase = Phase.check ∧ s.inv = false ∨ s.phase = Phase.pad → s.len = s.msg.length
  /-- From INIT_ACC to FINALIZE, P is the padded message and N its number of blocks (R24, R28). -/
  buffer_padded : 3 ≤ s.phase.toNat ∧ s.phase.toNat ≤ 9 →
    s.len = s.msg.length ∧ s.len < 2 ^ 61 ∧ s.p = paddedBuffer s.msg ∧ s.n = blockCount s.len
  /-- From LOAD_BLOCK to FOLD, BLK is the index of a block (R23). -/
  block_range : 4 ≤ s.phase.toNat ∧ s.phase.toNat ≤ 8 → s.blk < s.n
  /-- In EXPAND, T is in 16..NW-1 (R25). -/
  schedule_range : s.phase = Phase.expand → 16 ≤ s.t ∧ s.t < scheduleLength s.alg
  /-- In ROUND, I is in 0..NR-1 (R26). -/
  round_range : s.phase = Phase.round → s.i < roundCount s.alg

/-! The error entry, as R250 writes it. -/

/-- BUSY and DONE 0, ERR 1, ERRCODE `code`, SALG unchanged, PHASE = ERROR; nothing else is saved or changed and no event is
appended. -/
def errorEntry (code : BitVec 4) (s : State) : State :=
  { s with
    status := { busy := false, done := false, err := true, errcode := code, salg := s.status.salg }
    phase := 0xB }

/-! Agreement on what can still be read (R37, R225). -/

/-- The first `k` entries of ACC agree. -/
def accAgree (k : Nat) (x y : Vector Word32 8) : Prop :=
  ∀ j, (h : j < 8) → j < k → x[j] = y[j]

/-- The first `k` entries of W agree. -/
def scheduleAgree (k : Nat) (x y : Vector Word32 80) : Prop :=
  ∀ j, (h : j < 80) → j < k → x[j] = y[j]

/-- The working registers an algorithm uses agree (R30). -/
def regsAgree : Alg → Regs → Regs → Prop
  | .sha1, r, q => sha1Snapshot r = sha1Snapshot q
  | .sha256, r, q => r = q

/-- Two states that differ at most in registers no later step can read before some step writes them: everything the host and the
sink can see agrees, and so does each register that is live in the current phase. -/
structure LiveAgree (s u : State) : Prop where
  phase_eq : s.phase = u.phase
  status_eq : s.status = u.status
  out_eq : s.out = u.out
  host_eq : s.host = u.host
  msgIn_eq : s.msgIn = u.msgIn
  sink_eq : s.sink = u.sink
  reads_eq : s.statusReads = u.statusReads
  capacity_eq : s.msgCapacity = u.msgCapacity
  /-- ALG is live while a computation runs. -/
  alg_eq : 1 ≤ s.phase.toNat ∧ s.phase.toNat ≤ 9 → s.alg = u.alg
  /-- INV is live in CHECK. -/
  inv_eq : s.phase = Phase.check → s.inv = u.inv
  /-- MSG and L are live until PAD has read them, unless CHECK ends the computation. -/
  message_eq : s.phase = Phase.check ∧ s.inv = false ∨ s.phase = Phase.pad → s.msg = u.msg ∧ s.len = u.len
  /-- P and N are live from INIT_ACC to FOLD. -/
  buffer_eq : 3 ≤ s.phase.toNat ∧ s.phase.toNat ≤ 8 → s.p = u.p ∧ s.n = u.n
  /-- BLK is live from LOAD_BLOCK to FOLD. -/
  block_eq : 4 ≤ s.phase.toNat ∧ s.phase.toNat ≤ 8 → s.blk = u.blk
  /-- The ACC entries of the algorithm are live from LOAD_BLOCK to FINALIZE. -/
  acc_agree : 4 ≤ s.phase.toNat ∧ s.phase.toNat ≤ 9 → accAgree (registerCount s.alg) s.acc u.acc
  /-- In EXPAND, T and the schedule words below T are live. -/
  expand_agree : s.phase = Phase.expand → s.t = u.t ∧ scheduleAgree s.t s.w u.w
  /-- In INIT_WS and ROUND the whole schedule of the algorithm is live. -/
  schedule_agree : s.phase = Phase.initWs ∨ s.phase = Phase.round → scheduleAgree (scheduleLength s.alg) s.w u.w
  /-- I is live in ROUND. -/
  round_eq : s.phase = Phase.round → s.i = u.i
  /-- The working registers of the algorithm are live in ROUND and FOLD. -/
  regs_agree : s.phase = Phase.round ∨ s.phase = Phase.fold → regsAgree s.alg s.regs u.regs

/-- Two results of the same kind: next states that are related, or the same fault, or the same refusal. -/
def resultAgree (rel : State → State → Prop) : Result → Result → Prop
  | .next s, .next u => rel s u
  | .fault f, .fault g => f = g
  | .refused r, .refused q => r = q
  | _, _ => False

/-! The events of a computation as a function (R61, R62, R144). -/

/-- The first sixteen schedule words of block `b` of the padded bytes (R53, R124). -/
def referenceBlock (bytes : List Byte) (b : Nat) : List Word32 :=
  (List.range 16).map fun j =>
    be32 (bytes.getD (64 * b + 4 * j) 0) (bytes.getD (64 * b + 4 * j + 1) 0) (bytes.getD (64 * b + 4 * j + 2) 0)
      (bytes.getD (64 * b + 4 * j + 3) 0)

/-- The schedule word that follows the words `w` (R141, R143). -/
def referenceWord (alg : Alg) (w : List Word32) : Word32 :=
  match alg with
  | .sha1 => rotl (w.getD (w.length - 3) 0 ^^^ w.getD (w.length - 8) 0 ^^^ w.getD (w.length - 14) 0 ^^^ w.getD (w.length - 16) 0) 1
  | .sha256 =>
    w.getD (w.length - 16) 0 + smallSigma0 (w.getD (w.length - 15) 0) + w.getD (w.length - 7) 0
      + smallSigma1 (w.getD (w.length - 2) 0)

/-- `count` more words of the schedule. -/
def referenceExtend (alg : Alg) : Nat → List Word32 → List Word32
  | 0, w => w
  | count + 1, w => referenceExtend alg count (w ++ [referenceWord alg w])

/-- The NW words of the schedule of block `b`: `expand(block b)` of R144. -/
def referenceSchedule (alg : Alg) (bytes : List Byte) (b : Nat) : List Word32 :=
  referenceExtend alg (scheduleLength alg - 16) (referenceBlock bytes b)

/-- The working registers after `k` rounds from `r` with the schedule `w` (R162, R192). -/
def referenceRounds (alg : Alg) (w : List Word32) (r : Regs) : Nat → Regs
  | 0 => r
  | k + 1 =>
    match alg with
    | .sha1 => sha1RoundRegs k (w.getD k 0) (referenceRounds alg w r k)
    | .sha256 => sha256RoundRegs (kTable.getD k 0) (w.getD k 0) (referenceRounds alg w r k)

/-- The registers a snapshot of the algorithm carries (R80). -/
def snapshot : Alg → Regs → List Word32
  | .sha1, r => sha1Snapshot r
  | .sha256, r => sha256Snapshot r

/-- The initial hash value as registers (R160, R190); SHA-1 has no use for the last three. -/
def referenceInit : Alg → Regs
  | .sha1 => ⟨0x67452301, 0xEFCDAB89, 0x98BADCFE, 0x10325476, 0xC3D2E1F0, 0, 0, 0⟩
  | .sha256 => ⟨0x6A09E667, 0xBB67AE85, 0x3C6EF372, 0xA54FF53A, 0x510E527F, 0x9B05688C, 0x1F83D9AB, 0x5BE0CD19⟩

/-- The elementwise sum of the fold (R163, R193). -/
def addRegs (x y : Regs) : Regs :=
  ⟨x.a + y.a, x.b + y.b, x.c + y.c, x.d + y.d, x.e + y.e, x.f + y.f, x.g + y.g, x.h + y.h⟩

/-- The accumulator after `b` blocks. -/
def referenceAcc (alg : Alg) (bytes : List Byte) : Nat → Regs
  | 0 => referenceInit alg
  | b + 1 =>
    addRegs (referenceAcc alg bytes b)
      (referenceRounds alg (referenceSchedule alg bytes b) (referenceAcc alg bytes b) (roundCount alg))

/-- The Round events of block `b`, indices 1 to NR (R62, R80). -/
def referenceBlockEvents (alg : Alg) (bytes : List Byte) (b : Nat) : List Event :=
  (List.range (roundCount alg)).map fun k =>
    .round (k + 1) (snapshot alg (referenceRounds alg (referenceSchedule alg bytes b) (referenceAcc alg bytes b) (k + 1)))

/-- All events of a computation: the Round events of each block in order, then one Digest (R62). -/
def referenceEvents (alg : Alg) (msg : List Byte) : List Event :=
  (List.range (blockCount msg.length)).flatMap (referenceBlockEvents alg (padBytes msg))
    ++ [.digest ((snapshot alg (referenceAcc alg (padBytes msg) (blockCount msg.length))).flatMap hex8)]

/-- The engine steps from CHECK to DONE for `n` blocks (R40). -/
def computationSteps (alg : Alg) (n : Nat) : Nat :=
  3 + n * (1 + (scheduleLength alg - 16) + 1 + roundCount alg + 1) + 1

end Sys2Proof.Machine
end

