-- ==== Sys2Proof/Certificates/Slice0/Obligations.lean ====
section
/-! DEFINITION. The statements for the provers. In all of them a state is any state, reachable or not, unless a premise says
otherwise. -/

open Sys2Proof Sys2Proof.Machine

/-! Encoding. -/

/-- Words of R74 and R75, and of the command vectors of 95_test_vectors.md, decode to the instruction each stands for. The last
clause, that a word with bit 5 set is rejected, is the model's choice (log entry 21): R75 gives such a word no row. -/
def Obligations.SpecWordsDecode : Prop :=
  decode (.cmd 0x00000001) = .ok (.startSha1 false) ∧ decode (.cmd 0x00000021) = .ok (.startSha1 true) ∧
  decode (.cmd 0x00000011) = .ok (.startSha256 false) ∧ decode (.cmd 0x00000031) = .ok (.startSha256 true) ∧
  decode (.cmd 0x00000000) = .ok (.illegal 0x00000000) ∧ decode (.cmd 0x00000041) = .ok (.illegal 0x00000041) ∧
  decode (.cmd 0x80000001) = .ok (.illegal 0x80000001) ∧ decode .statusRead = .ok .readStatus ∧
  decode (.uop 0x00) = .ok (.idle .sha1) ∧ decode (.uop 0x12) = .ok (.pad .sha256) ∧
  decode (.uop 0x05) = .ok .sha1Expand ∧ decode (.uop 0x17) = .ok .sha256Round ∧
  decode (.uop 0x09) = .ok .sha1Finalize ∧ decode (.uop 0x1B) = .ok (.error .sha256) ∧
  decode (.uop 0x0C) = .ok (.reservedPhase .sha1 0xC) ∧ decode (.uop 0x20) = .error .notAMicroOperation

/-- R74: the decoding of every command word, by its fields and by the mask; the four legal words. -/
def Obligations.CommandWordsDecode : Prop :=
  ∀ c : Word32,
    (c.extractLsb' 0 4 = 0x1#4 → c.extractLsb' 6 26 = 0#26 → c.getLsbD 4 = false →
      decode (.cmd c) = .ok (.startSha1 (c.getLsbD 5)) ∧ c &&& 0xFFFFFFDF#32 = 0x00000001#32) ∧
    (c.extractLsb' 0 4 = 0x1#4 → c.extractLsb' 6 26 = 0#26 → c.getLsbD 4 = true →
      decode (.cmd c) = .ok (.startSha256 (c.getLsbD 5)) ∧ c &&& 0xFFFFFFDF#32 = 0x00000011#32) ∧
    (c.extractLsb' 0 4 ≠ 0x1#4 ∨ c.extractLsb' 6 26 ≠ 0#26 →
      decode (.cmd c) = .ok (.illegal c) ∧ c &&& 0xFFFFFFDF#32 ≠ 0x00000001#32 ∧ c &&& 0xFFFFFFDF#32 ≠ 0x00000011#32) ∧
    ((c.extractLsb' 0 4 = 0x1#4 ∧ c.extractLsb' 6 26 = 0#26) ↔
      c = 0x00000001#32 ∨ c = 0x00000021#32 ∨ c = 0x00000011#32 ∨ c = 0x00000031#32)

/-- R75: the layout of a micro-operation word, the table of the codes, and the word the engine's next step is named by. -/
def Obligations.MicroOperationWords : Prop :=
  (∀ (alg : Alg) (phase : BitVec 4), (uopWord alg phase).extractLsb' 0 4 = phase ∧
    (uopWord alg phase).extractLsb' 4 1 = (match alg with | .sha1 => 0#1 | .sha256 => 1#1) ∧
    (uopWord alg phase).extractLsb' 5 3 = 0#3) ∧
  (decode (.uop 0x00) = .ok (.idle .sha1) ∧ decode (.uop 0x10) = .ok (.idle .sha256)) ∧
  (decode (.uop 0x01) = .ok (.check .sha1) ∧ decode (.uop 0x11) = .ok (.check .sha256)) ∧
  (decode (.uop 0x02) = .ok (.pad .sha1) ∧ decode (.uop 0x12) = .ok (.pad .sha256)) ∧
  (decode (.uop 0x03) = .ok .sha1InitAcc ∧ decode (.uop 0x13) = .ok .sha256InitAcc) ∧
  (decode (.uop 0x04) = .ok (.loadBlock .sha1) ∧ decode (.uop 0x14) = .ok (.loadBlock .sha256)) ∧
  (decode (.uop 0x05) = .ok .sha1Expand ∧ decode (.uop 0x15) = .ok .sha256Expand) ∧
  (decode (.uop 0x06) = .ok .sha1InitWs ∧ decode (.uop 0x16) = .ok .sha256InitWs) ∧
  (decode (.uop 0x07) = .ok .sha1Round ∧ decode (.uop 0x17) = .ok .sha256Round) ∧
  (decode (.uop 0x08) = .ok .sha1Fold ∧ decode (.uop 0x18) = .ok .sha256Fold) ∧
  (decode (.uop 0x09) = .ok .sha1Finalize ∧ decode (.uop 0x19) = .ok .sha256Finalize) ∧
  (decode (.uop 0x0A) = .ok (.done .sha1) ∧ decode (.uop 0x1A) = .ok (.done .sha256)) ∧
  (decode (.uop 0x0B) = .ok (.error .sha1) ∧ decode (.uop 0x1B) = .ok (.error .sha256)) ∧
  (∀ (alg : Alg) (code : BitVec 4), 12 ≤ code.toNat → decode (.uop (uopWord alg code)) = .ok (.reservedPhase alg code)) ∧
  (∀ s : State, (s.host = [] ∨ ∃ rest, s.host = .engine :: rest) → (presented s).1 = .uop (uopWord s.alg s.phase))

/-- Decoding the encoding of a well-formed instruction gives it back, with every operand. -/
def Obligations.DecodeOfEncode : Prop :=
  ∀ i : Instr, i.wellFormed = true → decode (encode i) = .ok i

/-- Every word has one meaning: what decodes to an instruction is its encoding, and the instruction is well-formed. -/
def Obligations.EncodeOfDecode : Prop :=
  ∀ (f : Fetched) (i : Instr), decode f = .ok i → encode i = f ∧ i.wellFormed = true

/-! The step. -/

/-- A step runs the decoded instruction: whatever the turn presents decodes to is run, in the state without that turn (and, for a
command write, with its message operand on the port). A `wait` that reads BUSY = 1 gives the engine a turn and waits again. -/
def Obligations.StepRunsDecodedInstruction : Prop :=
  ∀ (s : State) (i : Instr), s.phase.toNat < 12 → s.status.errcode.toNat < 4 →
    (s.host = [] → decode (.uop (uopWord s.alg s.phase)) = .ok i → step s = exec i s) ∧
    (∀ rest, s.host = .engine :: rest → decode (.uop (uopWord s.alg s.phase)) = .ok i → step s = exec i { s with host := rest }) ∧
    (∀ c msg rest, s.host = .write c msg :: rest → decode (.cmd c) = .ok i →
      step s = exec i { s with host := rest, msgIn := msg }) ∧
    (∀ rest, s.host = .read :: rest → step s = exec .readStatus { s with host := rest }) ∧
    (∀ rest, s.host = .wait :: rest → s.status.busy = false → step s = exec .readStatus { s with host := rest }) ∧
    (∀ rest, s.host = .wait :: rest → s.status.busy = true →
      step s = exec .readStatus { s with host := .engine :: .wait :: rest })

/-- R76: a reserved code faults, whoever moves (a reset is taken first), RESERVED_PHASE faults, and no instruction writes such a
code. -/
def Obligations.ReservedPhaseFaults : Prop :=
  (∀ s : State, 12 ≤ s.phase.toNat → (∀ rest, s.host ≠ .reset :: rest) → step s = .fault .reservedPhase) ∧
  (∀ (alg : Alg) (code : BitVec 4) (s : State), exec (.reservedPhase alg code) s = .fault .reservedPhase) ∧
  (∀ (i : Instr) (s u : State), s.phase.toNat < 12 → exec i s = .next u → u.phase.toNat < 12)

/-- A reserved ERRCODE has no meaning: the step faults, and no instruction writes one. The step-level fault is the model's reading
of U11 (log entry 10). -/
def Obligations.ReservedErrorCodeFaults : Prop :=
  (∀ s : State, s.phase.toNat < 12 → 4 ≤ s.status.errcode.toNat → (∀ rest, s.host ≠ .reset :: rest) →
    step s = .fault .reservedErrcode) ∧
  (∀ (i : Instr) (s u : State), s.status.errcode.toNat < 4 → exec i s = .next u → u.status.errcode.toNat < 4)

/-! Host commands. -/

/-- R101. A message operand above MSG_CAPACITY is the business of R106 and of the statement CapacityRefused, which gives the effect of
INV = 1 there. -/
def Obligations.StartSha1Begins : Prop :=
  (∀ c : Word32, c &&& 0xFFFFFFDF#32 = 0x00000001#32 → decode (.cmd c) = .ok (.startSha1 (c.getLsbD 5))) ∧
  ∀ (s : State) (inv : Bool), (s.phase = 0x0 ∨ s.phase = 0xA ∨ s.phase = 0xB) →
    (s.msgIn.length ≤ s.msgCapacity ∨ 2 ^ 61 ≤ s.msgIn.length) →
    exec (.startSha1 inv) s = .next { s with
      alg := .sha1
      inv := inv
      msg := if inv = true then s.msg else s.msgIn
      len := if inv = true then s.len else s.msgIn.length
      status := { busy := true, done := false, err := false, errcode := 0, salg := .sha1 }
      phase := 0x1 } ∧
    statusWord { busy := true, done := false, err := false, errcode := 0, salg := .sha1 } = 0x00000001

/-- R102, as R101's statement. -/
def Obligations.StartSha256Begins : Prop :=
  (∀ c : Word32, c &&& 0xFFFFFFDF#32 = 0x00000011#32 → decode (.cmd c) = .ok (.startSha256 (c.getLsbD 5))) ∧
  ∀ (s : State) (inv : Bool), (s.phase = 0x0 ∨ s.phase = 0xA ∨ s.phase = 0xB) →
    (s.msgIn.length ≤ s.msgCapacity ∨ 2 ^ 61 ≤ s.msgIn.length) →
    exec (.startSha256 inv) s = .next { s with
      alg := .sha256
      inv := inv
      msg := if inv = true then s.msg else s.msgIn
      len := if inv = true then s.len else s.msgIn.length
      status := { busy := true, done := false, err := false, errcode := 0, salg := .sha256 }
      phase := 0x1 } ∧
    statusWord { busy := true, done := false, err := false, errcode := 0, salg := .sha256 } = 0x00000101

/-- R103. -/
def Obligations.IllegalCommandRaises : Prop :=
  (∀ c : Word32, c.extractLsb' 0 4 ≠ 0x1#4 ∨ c.extractLsb' 6 26 ≠ 0#26 → decode (.cmd c) = .ok (.illegal c)) ∧
  ∀ (s : State) (c : Word32), (s.phase = 0x0 ∨ s.phase = 0xA ∨ s.phase = 0xB) →
    exec (.illegal c) s = .next { s with
      status := { busy := false, done := false, err := true, errcode := 3, salg := s.status.salg }
      phase := 0xB }

/-- R104: in every state, with no effect on the engine; the host receives the word. Where the model records what the host received is
its own choice (log entry 8). -/
def Obligations.ReadStatusReturnsWord : Prop :=
  ∀ s : State, exec .readStatus s = .next { s with statusReads := s.statusReads ++ [statusWord s.status] }

/-- R105. -/
def Obligations.BusyCommandRefused : Prop :=
  ∀ (s : State) (inv : Bool) (c : Word32), 1 ≤ s.phase.toNat → s.phase.toNat ≤ 9 →
    exec (.startSha1 inv) s = .refused .commandWhileBusy ∧ exec (.startSha256 inv) s = .refused .commandWhileBusy ∧
    exec (.illegal c) s = .refused .commandWhileBusy

/-- R106: above the capacity a START with INV = 0 is refused; from 2^61 bytes on it is never refused for capacity. A START with
INV = 1 has its whole effect (R101, R102) whatever the operand's length, since the operand is ignored (R72); that this holds above the
capacity too is the model's reading (log entry 6). -/
def Obligations.CapacityRefused : Prop :=
  ∀ s : State, (s.phase = 0x0 ∨ s.phase = 0xA ∨ s.phase = 0xB) →
    (s.msgCapacity < s.msgIn.length → s.msgIn.length ≤ 2 ^ 61 - 1 →
      exec (.startSha1 false) s = .refused .messageOverCapacity ∧ exec (.startSha256 false) s = .refused .messageOverCapacity) ∧
    (2 ^ 61 ≤ s.msgIn.length →
      (∃ u, exec (.startSha1 false) s = .next u) ∧ ∃ u, exec (.startSha256 false) s = .next u) ∧
    exec (.startSha1 true) s = .next { s with
      alg := .sha1
      inv := true
      status := { busy := true, done := false, err := false, errcode := 0, salg := .sha1 }
      phase := 0x1 } ∧
    exec (.startSha256 true) s = .next { s with
      alg := .sha256
      inv := true
      status := { busy := true, done := false, err := false, errcode := 0, salg := .sha256 }
      phase := 0x1 }

/-- The STATUS word of R34, bit by bit; the reserved bits read 0. -/
def Obligations.StatusWordLayout : Prop :=
  ∀ st : Status, (statusWord st).getLsbD 0 = st.busy ∧ (statusWord st).getLsbD 1 = st.done ∧ (statusWord st).getLsbD 2 = st.err ∧
    (statusWord st).getLsbD 3 = false ∧ (statusWord st).extractLsb' 4 4 = st.errcode ∧
    (statusWord st).extractLsb' 8 1 = (match st.salg with | .sha1 => 0#1 | .sha256 => 1#1) ∧
    (statusWord st).extractLsb' 9 23 = 0#23

/-! The padder. -/

/-- R120. -/
def Obligations.CheckTurnsInvIntoException : Prop :=
  ∀ (alg : Alg) (s : State),
    (s.inv = false → exec (.check alg) s = .next { s with phase := 0x2 }) ∧
    (s.inv = true → exec (.check alg) s = .next { s with
      status := { busy := false, done := false, err := true, errcode := 1, salg := s.status.salg }
      phase := 0xB })

/-- R121, with k = (55 - L) mod 64: the buffer byte by byte, N and PHASE, and nothing else written; LengthOverflow from 2^61 bytes
on. -/
def Obligations.PadBuildsBuffer : Prop :=
  ∀ (alg : Alg) (s : State) (k : Nat), (k : Int) = (55 - (s.len : Int)) % 64 →
    (s.len = s.msg.length → s.len < 2 ^ 61 →
      ∃ u, exec (.pad alg) s = .next u ∧ u = { s with p := u.p, n := (s.len + 1 + k + 8) / 64, phase := 0x3 } ∧
        (∀ a, a < s.len → u.p.read a = s.msg[a]?) ∧ u.p.read s.len = some 0x80 ∧
        (∀ a, s.len < a → a ≤ s.len + k → u.p.read a = some 0x00) ∧
        (∀ j, j < 8 → u.p.read (s.len + 1 + k + j) = some ((BitVec.ofNat 64 (8 * s.len)).extractLsb' (56 - 8 * j) 8)) ∧
        ∀ a, s.len + k + 9 ≤ a → u.p.read a = none) ∧
    (2 ^ 61 ≤ s.len → exec (.pad alg) s = .next { s with
      status := { busy := false, done := false, err := true, errcode := 2, salg := s.status.salg }
      phase := 0xB })

/-- R123. -/
def Obligations.PaddedBufferInvariants : Prop :=
  ∀ (alg : Alg) (s u : State), s.len = s.msg.length → s.len < 2 ^ 61 → exec (.pad alg) s = .next u →
    ((u.p.length : Int) = s.len + 1 + (55 - (s.len : Int)) % 64 + 8 ∧ u.p.length % 64 = 0) ∧
    (s.len + 9 ≤ u.p.length ∧ u.p.length ≤ s.len + 72) ∧
    (u.n = u.p.length / 64 ∧ u.n = (s.len + 8) / 64 + 1 ∧ 1 ≤ u.n) ∧
    (∀ a, a < s.len → u.p.read a = s.msg[a]?) ∧ u.p.read s.len = some 0x80 ∧
    (∀ a, s.len < a → a < u.p.length - 8 → u.p.read a = some 0x00) ∧
    ∀ j, j < 8 → u.p.read (u.p.length - 8 + j) = some ((BitVec.ofNat 64 (8 * s.len)).extractLsb' (56 - 8 * j) 8)

/-- R125: P and N depend on MSG and L only, not on ALG nor on anything else the engine holds. -/
def Obligations.PadDependsOnMessageOnly : Prop :=
  ∀ (a b : Alg) (s t : State), s.msg = t.msg → s.len = t.len → s.len = s.msg.length → s.len < 2 ^ 61 →
    ∃ u v, exec (.pad a) s = .next u ∧ exec (.pad b) t = .next v ∧ u.p = v.p ∧ u.n = v.n

/-- R15: `be32` and `be64bytes`, most significant byte first. -/
def Obligations.BigEndianBytes : Prop :=
  (∀ b0 b1 b2 b3 : Byte,
    (be32 b0 b1 b2 b3).toNat = b0.toNat * 2 ^ 24 + b1.toNat * 2 ^ 16 + b2.toNat * 2 ^ 8 + b3.toNat) ∧
  ∀ v : Word64, (be64bytes v).length = 8 ∧ (∀ k, k < 8 → (be64bytes v)[k]? = some (v.extractLsb' (56 - 8 * k) 8)) ∧
    (be64bytes v).foldl (fun x b => 256 * x + b.toNat) 0 = v.toNat

/-! The schedule. -/

/-- R140: where P holds the 64 bytes of block BLK, the sixteen words are their big-endian words (R53); the other entries of W and
everything else keep their values. -/
def Obligations.LoadBlockLoadsWords : Prop :=
  ∀ (alg : Alg) (s : State) (byte : Nat → Byte), (∀ k, k < 64 → s.p.read (64 * s.blk + k) = some (byte k)) →
    ∃ u, exec (.loadBlock alg) s = .next u ∧ u = { s with w := u.w, t := 16, phase := 0x5 } ∧
      (∀ j, (h : j < 16) → u.w[j] = be32 (byte (4 * j)) (byte (4 * j + 1)) (byte (4 * j + 2)) (byte (4 * j + 3))) ∧
      ∀ j, (h : j < 80) → 16 ≤ j → u.w[j] = s.w[j]

/-- R141, for T in 16..79. -/
def Obligations.Sha1ExpandWritesWord : Prop :=
  ∀ (s : State) (h : 16 ≤ s.t ∧ s.t < 80),
    ∃ u, exec .sha1Expand s = .next u ∧
      u = { s with w := u.w, t := s.t + 1, phase := if s.t + 1 = 80 then 0x6 else 0x5 } ∧
      u.w[s.t] = rotl (s.w[s.t - 3] ^^^ s.w[s.t - 8] ^^^ s.w[s.t - 14] ^^^ s.w[s.t - 16]) 1 ∧
      ∀ j, (hj : j < 80) → j ≠ s.t → u.w[j] = s.w[j]

/-- R143, for T in 16..63. -/
def Obligations.Sha256ExpandWritesWord : Prop :=
  ∀ (s : State) (h : 16 ≤ s.t ∧ s.t < 64),
    ∃ u, exec .sha256Expand s = .next u ∧
      u = { s with w := u.w, t := s.t + 1, phase := if s.t + 1 = 64 then 0x6 else 0x5 } ∧
      u.w[s.t] = s.w[s.t - 16] + smallSigma0 s.w[s.t - 15] + s.w[s.t - 7] + smallSigma1 s.w[s.t - 2] ∧
      ∀ j, (hj : j < 80) → j ≠ s.t → u.w[j] = s.w[j]

/-- R14: the word operators as numbers. -/
def Obligations.WordOperators : Prop :=
  ∀ x y z : Word32,
    (x + y).toNat = (x.toNat + y.toNat) % 2 ^ 32 ∧ (x + y + z).toNat = (x.toNat + y.toNat + z.toNat) % 2 ^ 32 ∧
    x + y + z = x + (y + z) ∧ x + y = y + x ∧
    (~~~x).toNat = 2 ^ 32 - 1 - x.toNat ∧
    (∀ k, (x &&& y).getLsbD k = (x.getLsbD k && y.getLsbD k) ∧ (x ||| y).getLsbD k = (x.getLsbD k || y.getLsbD k) ∧
      (x ^^^ y).getLsbD k = (x.getLsbD k ^^ y.getLsbD k)) ∧
    (∀ n, n ≤ 31 → (shr x n).toNat = x.toNat / 2 ^ n) ∧
    ∀ n, 1 ≤ n → n ≤ 31 →
      (rotl x n).toNat = (x.toNat * 2 ^ n) % 2 ^ 32 ||| x.toNat / 2 ^ (32 - n) ∧
      (rotr x n).toNat = x.toNat / 2 ^ n ||| (x.toNat * 2 ^ (32 - n)) % 2 ^ 32 ∧
      ∀ k, k < 32 → (rotl x n).getLsbD ((k + n) % 32) = x.getLsbD k ∧ (rotr x n).getLsbD k = x.getLsbD ((k + n) % 32)

/-- R142, bit by bit: a rotation brings bit k + n (mod 32) to bit k, a shift brings bit k + n or zero. -/
def Obligations.ScheduleFunctionsBitwise : Prop :=
  ∀ (x : Word32) (k : Nat), k < 32 →
    (smallSigma0 x).getLsbD k = (x.getLsbD ((k + 7) % 32) ^^ x.getLsbD ((k + 18) % 32) ^^ (decide (k + 3 < 32) && x.getLsbD (k + 3))) ∧
    (smallSigma1 x).getLsbD k
      = (x.getLsbD ((k + 17) % 32) ^^ x.getLsbD ((k + 19) % 32) ^^ (decide (k + 10 < 32) && x.getLsbD (k + 10)))

/-! SHA-1. -/

/-- R160: ACC[5..7] are not written. -/
def Obligations.Sha1InitAccLoads : Prop :=
  ∀ s : State, exec .sha1InitAcc s = .next { s with
    acc := #v[0x67452301, 0xEFCDAB89, 0x98BADCFE, 0x10325476, 0xC3D2E1F0, s.acc[5], s.acc[6], s.acc[7]]
    blk := 0
    phase := 0x4 }

/-- R161: F, G and H are not written. -/
def Obligations.Sha1InitWsLoads : Prop :=
  ∀ s : State, exec .sha1InitWs s = .next { s with
    regs := ⟨s.acc[0], s.acc[1], s.acc[2], s.acc[3], s.acc[4], s.regs.f, s.regs.g, s.regs.h⟩
    i := 0
    phase := 0x7 }

/-- R162, for I in 0..79: the round when the sink accepts its event, and the hold, every register unchanged, when it does not. What
becomes of the sink (`k`) is the sink's business here. -/
def Obligations.Sha1RoundStep : Prop :=
  ∀ (s : State) (h : s.i < 80) (temp : Word32),
    temp = rotl s.regs.a 5 + f1 s.i s.regs.b s.regs.c s.regs.d + s.regs.e + k1 s.i + s.w[s.i] →
    (s.sink.accepts = true → ∃ k, exec .sha1Round s = .next { s with
      regs := ⟨temp, s.regs.a, rotl s.regs.b 30, s.regs.c, s.regs.d, s.regs.f, s.regs.g, s.regs.h⟩
      i := s.i + 1
      phase := if s.i + 1 = 80 then 0x8 else 0x7
      out := s.out ++ [.round (s.i + 1) [temp, s.regs.a, rotl s.regs.b 30, s.regs.c, s.regs.d]]
      sink := k }) ∧
    (s.sink.accepts = false → ∃ k, exec .sha1Round s = .next { s with sink := k })

/-- R163: ACC[5..7] are not written. -/
def Obligations.Sha1FoldAdds : Prop :=
  ∀ s : State, exec .sha1Fold s = .next { s with
    acc := #v[s.acc[0] + s.regs.a, s.acc[1] + s.regs.b, s.acc[2] + s.regs.c, s.acc[3] + s.regs.d, s.acc[4] + s.regs.e,
      s.acc[5], s.acc[6], s.acc[7]]
    blk := s.blk + 1
    phase := if s.blk + 1 = s.n then 0x9 else 0x4 }

/-- R164 and R165: the round constant and the round function of each range of rounds, with the equal XOR forms of Ch and Maj. -/
def Obligations.Sha1RoundTables : Prop :=
  ∀ (i : Nat) (b c d : Word32),
    (i < 20 → k1 i = 0x5A827999 ∧ f1 i b c d = (b &&& c) ||| (~~~b &&& d) ∧ f1 i b c d = (b &&& c) ^^^ (~~~b &&& d)) ∧
    (20 ≤ i → i < 40 → k1 i = 0x6ED9EBA1 ∧ f1 i b c d = b ^^^ c ^^^ d) ∧
    (40 ≤ i → i < 60 → k1 i = 0x8F1BBCDC ∧ f1 i b c d = (b &&& c) ||| (b &&& d) ||| (c &&& d) ∧
      f1 i b c d = (b &&& c) ^^^ (b &&& d) ^^^ (c &&& d)) ∧
    (60 ≤ i → i < 80 → k1 i = 0xCA62C1D6 ∧ f1 i b c d = b ^^^ c ^^^ d)

/-! SHA-256. -/

/-- R190. -/
def Obligations.Sha256InitAccLoads : Prop :=
  ∀ s : State, exec .sha256InitAcc s = .next { s with
    acc := #v[0x6A09E667, 0xBB67AE85, 0x3C6EF372, 0xA54FF53A, 0x510E527F, 0x9B05688C, 0x1F83D9AB, 0x5BE0CD19]
    blk := 0
    phase := 0x4 }

/-- R191. -/
def Obligations.Sha256InitWsLoads : Prop :=
  ∀ s : State, exec .sha256InitWs s = .next { s with
    regs := ⟨s.acc[0], s.acc[1], s.acc[2], s.acc[3], s.acc[4], s.acc[5], s.acc[6], s.acc[7]⟩
    i := 0
    phase := 0x7 }

/-- R192, for I in 0..63: E takes `D + temp1`, A takes `temp1 + temp2`; the hold when the sink does not accept (`k` as in R162's
statement). -/
def Obligations.Sha256RoundStep : Prop :=
  ∀ (s : State) (h : s.i < 64) (temp1 temp2 : Word32),
    temp1 = s.regs.h + bigSigma1 s.regs.e + ch s.regs.e s.regs.f s.regs.g + k256 s.i h + s.w[s.i] →
    temp2 = bigSigma0 s.regs.a + maj s.regs.a s.regs.b s.regs.c →
    (s.sink.accepts = true → ∃ k, exec .sha256Round s = .next { s with
      regs := ⟨temp1 + temp2, s.regs.a, s.regs.b, s.regs.c, s.regs.d + temp1, s.regs.e, s.regs.f, s.regs.g⟩
      i := s.i + 1
      phase := if s.i + 1 = 64 then 0x8 else 0x7
      out := s.out ++ [.round (s.i + 1)
        [temp1 + temp2, s.regs.a, s.regs.b, s.regs.c, s.regs.d + temp1, s.regs.e, s.regs.f, s.regs.g]]
      sink := k }) ∧
    (s.sink.accepts = false → ∃ k, exec .sha256Round s = .next { s with sink := k })

/-- R193. -/
def Obligations.Sha256FoldAdds : Prop :=
  ∀ s : State, exec .sha256Fold s = .next { s with
    acc := #v[s.acc[0] + s.regs.a, s.acc[1] + s.regs.b, s.acc[2] + s.regs.c, s.acc[3] + s.regs.d,
      s.acc[4] + s.regs.e, s.acc[5] + s.regs.f, s.acc[6] + s.regs.g, s.acc[7] + s.regs.h]
    blk := s.blk + 1
    phase := if s.blk + 1 = s.n then 0x9 else 0x4 }

/-- R194: the 64 values of K. R195: the round functions bit by bit, and that Ch and Maj are the SHA-1 functions of R165. -/
def Obligations.Sha256RoundFunctions : Prop :=
  (kTable =
    [0x428A2F98, 0x71374491, 0xB5C0FBCF, 0xE9B5DBA5, 0x3956C25B, 0x59F111F1, 0x923F82A4, 0xAB1C5ED5] ++
    [0xD807AA98, 0x12835B01, 0x243185BE, 0x550C7DC3, 0x72BE5D74, 0x80DEB1FE, 0x9BDC06A7, 0xC19BF174] ++
    [0xE49B69C1, 0xEFBE4786, 0x0FC19DC6, 0x240CA1CC, 0x2DE92C6F, 0x4A7484AA, 0x5CB0A9DC, 0x76F988DA] ++
    [0x983E5152, 0xA831C66D, 0xB00327C8, 0xBF597FC7, 0xC6E00BF3, 0xD5A79147, 0x06CA6351, 0x14292967] ++
    [0x27B70A85, 0x2E1B2138, 0x4D2C6DFC, 0x53380D13, 0x650A7354, 0x766A0ABB, 0x81C2C92E, 0x92722C85] ++
    [0xA2BFE8A1, 0xA81A664B, 0xC24B8B70, 0xC76C51A3, 0xD192E819, 0xD6990624, 0xF40E3585, 0x106AA070] ++
    [0x19A4C116, 0x1E376C08, 0x2748774C, 0x34B0BCB5, 0x391C0CB3, 0x4ED8AA4A, 0x5B9CCA4F, 0x682E6FF3] ++
    [0x748F82EE, 0x78A5636F, 0x84C87814, 0x8CC70208, 0x90BEFFFA, 0xA4506CEB, 0xBEF9A3F7, 0xC67178F2]) ∧
  (∀ (i : Nat) (h : i < 64), kTable[i]? = some (k256 i h)) ∧
  ∀ (a b c : Word32) (k : Nat), k < 32 →
    (bigSigma1 a).getLsbD k = (a.getLsbD ((k + 6) % 32) ^^ a.getLsbD ((k + 11) % 32) ^^ a.getLsbD ((k + 25) % 32)) ∧
    (bigSigma0 a).getLsbD k = (a.getLsbD ((k + 2) % 32) ^^ a.getLsbD ((k + 13) % 32) ^^ a.getLsbD ((k + 22) % 32)) ∧
    (ch a b c).getLsbD k = (if a.getLsbD k then b.getLsbD k else c.getLsbD k) ∧
    (maj a b c).getLsbD k = (if a.getLsbD k = b.getLsbD k then a.getLsbD k else c.getLsbD k) ∧
    ch a b c = f1 0 a b c ∧ maj a b c = f1 40 a b c

/-! The finalizer and the phases without an engine step. -/

/-- R220, and the hold when the sink does not accept the Digest (`k` as in R162's statement). -/
def Obligations.Sha1FinalizeEmitsDigest : Prop :=
  ∀ s : State,
    (s.sink.accepts = true → ∃ k, exec .sha1Finalize s = .next { s with
      out := s.out ++ [.digest (hex8 s.acc[0] ++ hex8 s.acc[1] ++ hex8 s.acc[2] ++ hex8 s.acc[3] ++ hex8 s.acc[4])]
      sink := k
      status := { busy := false, done := true, err := false, errcode := 0, salg := .sha1 }
      phase := 0xA }) ∧
    (s.sink.accepts = false → ∃ k, exec .sha1Finalize s = .next { s with sink := k }) ∧
    (hex8 s.acc[0] ++ hex8 s.acc[1] ++ hex8 s.acc[2] ++ hex8 s.acc[3] ++ hex8 s.acc[4]).length = 40 ∧
    statusWord { busy := false, done := true, err := false, errcode := 0, salg := .sha1 } = 0x00000002

/-- R221, and the hold (`k` as in R162's statement). -/
def Obligations.Sha256FinalizeEmitsDigest : Prop :=
  ∀ s : State,
    (s.sink.accepts = true → ∃ k, exec .sha256Finalize s = .next { s with
      out := s.out ++ [.digest (hex8 s.acc[0] ++ hex8 s.acc[1] ++ hex8 s.acc[2] ++ hex8 s.acc[3] ++ hex8 s.acc[4]
        ++ hex8 s.acc[5] ++ hex8 s.acc[6] ++ hex8 s.acc[7])]
      sink := k
      status := { busy := false, done := true, err := false, errcode := 0, salg := .sha256 }
      phase := 0xA }) ∧
    (s.sink.accepts = false → ∃ k, exec .sha256Finalize s = .next { s with sink := k }) ∧
    (hex8 s.acc[0] ++ hex8 s.acc[1] ++ hex8 s.acc[2] ++ hex8 s.acc[3] ++ hex8 s.acc[4] ++ hex8 s.acc[5] ++ hex8 s.acc[6]
      ++ hex8 s.acc[7]).length = 64 ∧
    statusWord { busy := false, done := true, err := false, errcode := 0, salg := .sha256 } = 0x00000102

/-- R222: eight digits, each the nibble's character of "0123456789abcdef", most significant nibble first; the digits give the value
back. -/
def Obligations.HexDigitsOfWord : Prop :=
  ∀ v : Word32, (hex8 v).length = 8 ∧
    (∀ j, j < 8 →
      (hex8 v)[j]? = ['0', '1', '2', '3', '4', '5', '6', '7', '8', '9', 'a', 'b', 'c', 'd', 'e', 'f'][v.toNat / 16 ^ (7 - j) % 16]?) ∧
    ∀ x, hex8 x = hex8 v → x = v

/-- The engine takes no step in IDLE, DONE and ERROR (R223, R224, R251): their instructions leave the state as it is (log entry
9). -/
def Obligations.NoStepPhasesHold : Prop :=
  ∀ (alg : Alg) (s : State), exec (.idle alg) s = .next s ∧ exec (.done alg) s = .next s ∧ exec (.error alg) s = .next s

/-- R265: in IDLE, DONE and ERROR only a command write or a reset wakes the engine; whatever else happens, STATUS, PHASE, OUT and
every register keep their values. -/
def Obligations.NoWakeUpButCommandOrReset : Prop :=
  ∀ s u : State, (s.phase = 0x0 ∨ s.phase = 0xA ∨ s.phase = 0xB) → (∀ c msg rest, s.host ≠ .write c msg :: rest) →
    (∀ rest, s.host ≠ .reset :: rest) → step s = .next u →
    u = { s with host := u.host, statusReads := u.statusReads }

/-! Exceptions. -/

/-- R250: what each of the three exceptions does, and that nothing else changes. -/
def Obligations.ErrorEntry : Prop :=
  ∀ (s : State) (alg : Alg) (c : Word32),
    (s.inv = true → exec (.check alg) s = .next (errorEntry 1 s)) ∧
    (2 ^ 61 ≤ s.len → exec (.pad alg) s = .next (errorEntry 2 s)) ∧
    ((s.phase = 0x0 ∨ s.phase = 0xA ∨ s.phase = 0xB) → exec (.illegal c) s = .next (errorEntry 3 s))

/-- R252, by the turn: in ERROR an illegal command replaces ERRCODE with 3, whatever it was; a legal START and a reset clear the error
(R251, R270); nothing else touches STATUS or PHASE. -/
def Obligations.ErrorsDoNotNest : Prop :=
  ∀ s : State, s.phase = 0xB → s.status.err = true → s.status.errcode.toNat < 4 →
    (∀ c msg rest, s.host = .write c msg :: rest → c &&& 0xFFFFFFDF#32 ≠ 0x00000001#32 → c &&& 0xFFFFFFDF#32 ≠ 0x00000011#32 →
      ∃ u, step s = .next u ∧ u.phase = 0xB ∧ u.out = s.out ∧
        u.status = { busy := false, done := false, err := true, errcode := 3, salg := s.status.salg }) ∧
    (∀ c msg rest u, s.host = .write c msg :: rest →
      (c &&& 0xFFFFFFDF#32 = 0x00000001#32 ∨ c &&& 0xFFFFFFDF#32 = 0x00000011#32) → step s = .next u →
      u.phase = 0x1 ∧ u.status.err = false ∧ u.status.errcode = 0) ∧
    (∀ rest, s.host = .reset :: rest →
      ∃ u, step s = .next u ∧ u.phase = 0x0 ∧ u.status.err = false ∧ u.status.errcode = 0) ∧
    ((∀ c msg rest, s.host ≠ .write c msg :: rest) → (∀ rest, s.host ≠ .reset :: rest) →
      ∃ u, step s = .next u ∧ u.phase = 0xB ∧ u.status = s.status)

/-- R246, R241: with INV = 1 the length of the message is never tested: the computation ends in InvalidInput after CHECK, with no
event, whatever the message operand. For an operand above MSG_CAPACITY and below 2^61 bytes this is the model's reading of R72 and
R106 (log entry 6). -/
def Obligations.InvalidInputComesFirst : Prop :=
  ∀ (s : State) (msg : List Byte), (s.phase = 0x0 ∨ s.phase = 0xA ∨ s.phase = 0xB) → s.status.errcode.toNat < 4 →
    (s.host = [.write 0x00000021 msg] →
      ∃ u, core.run 2 s = .next u ∧ u.phase = 0xB ∧ statusWord u.status = 0x00000014 ∧ u.out = s.out) ∧
    (s.host = [.write 0x00000031 msg] →
      ∃ u, core.run 2 s = .next u ∧ u.phase = 0xB ∧ statusWord u.status = 0x00000114 ∧ u.out = s.out)

/-! The sink. -/

/-- R281: a sink that never accepts holds the engine for ever in ROUND or FINALIZE, every register unchanged; one that refuses `k`
times and then accepts lets the event out, once, at the next step. The sink's answers as a list are the model's (log entries 4 and
12). -/
def Obligations.SinkDecidesWhenEventLeaves : Prop :=
  ∀ (k : Nat) (s : State), (s.phase = 0x7 ∧ s.i < roundCount s.alg ∨ s.phase = 0x9) → s.status.errcode.toNat < 4 → s.host = [] →
    (s.sink = ⟨[], false⟩ → core.run k s = .next s) ∧
    (∀ answers, s.sink.answers = List.replicate k false ++ true :: answers →
      core.run k s = .next { s with sink := ⟨true :: answers, s.sink.rest⟩ } ∧
      ∃ u e, core.run (k + 1) s = .next u ∧ u.out = s.out ++ [e] ∧ u.sink = ⟨answers, s.sink.rest⟩)

/-- R35, R80, R82: OUT only grows, by at most one event a step, by a Round in ROUND and a Digest in FINALIZE; a Round carries the
index I + 1 and the registers after the round, a Digest only lowercase hex digits. -/
def Obligations.OutputGrowsByEmissionOnly : Prop :=
  ∀ s u : State, step s = .next u →
    u.out = s.out ∨
    (s.phase = 0x7 ∧ s.i + 1 ≤ roundCount s.alg ∧ (snapshot s.alg u.regs).length = registerCount s.alg ∧
      u.out = s.out ++ [.round (s.i + 1) (snapshot s.alg u.regs)]) ∨
    (s.phase = 0x9 ∧ ∃ d : List Char, d.length = 8 * registerCount s.alg ∧
      (∀ x, x ∈ d → x ∈ ['0', '1', '2', '3', '4', '5', '6', '7', '8', '9', 'a', 'b', 'c', 'd', 'e', 'f']) ∧
      u.out = s.out ++ [.digest d])

/-- Completion is reported with the Digest: the step that sets DONE appends the Digest (R220, R221), and no step that sets ERR
appends an event (R250). -/
def Obligations.ResultReportedWithDigest : Prop :=
  ∀ s u : State, step s = .next u →
    (s.status.done = false → u.status.done = true → ∃ d, u.out = s.out ++ [.digest d]) ∧
    (s.status.err = false → u.status.err = true → u.out = s.out)

/-! What each instruction leaves unchanged. -/

/-- R22, R27: only a START writes ALG, INV, MSG and L. -/
def Obligations.MessageRegistersFrame : Prop :=
  ∀ (i : Instr) (s u : State), exec i s = .next u → (∀ inv, i ≠ .startSha1 inv) → (∀ inv, i ≠ .startSha256 inv) →
    u.alg = s.alg ∧ u.inv = s.inv ∧ u.msg = s.msg ∧ u.len = s.len

/-- R51, R24: only PAD writes P and N: after every other instruction every byte of P reads as before. -/
def Obligations.BufferFrame : Prop :=
  ∀ (i : Instr) (s u : State), exec i s = .next u → (∀ alg, i ≠ .pad alg) →
    u.n = s.n ∧ ∀ a, u.p.read a = s.p.read a

/-- R23, R25, R26, R29, R30, R31: who writes BLK and ACC, T and W, I and the working registers, and what the instructions of each
algorithm leave alone of them. -/
def Obligations.HashRegistersFrame : Prop :=
  ∀ (i : Instr) (s u : State), exec i s = .next u →
    (i ≠ .sha1InitAcc → i ≠ .sha256InitAcc → i ≠ .sha1Fold → i ≠ .sha256Fold → u.blk = s.blk ∧ u.acc = s.acc) ∧
    (i = .sha1InitAcc ∨ i = .sha1Fold → u.acc[5] = s.acc[5] ∧ u.acc[6] = s.acc[6] ∧ u.acc[7] = s.acc[7]) ∧
    ((∀ alg, i ≠ .loadBlock alg) → i ≠ .sha1Expand → i ≠ .sha256Expand → u.t = s.t ∧ u.w = s.w) ∧
    (i = .sha256Expand → ∀ j, (h : j < 80) → 64 ≤ j → u.w[j] = s.w[j]) ∧
    (i ≠ .sha1InitWs → i ≠ .sha256InitWs → i ≠ .sha1Round → i ≠ .sha256Round → u.i = s.i ∧ u.regs = s.regs) ∧
    (i = .sha1InitWs ∨ i = .sha1Round → u.regs.f = s.regs.f ∧ u.regs.g = s.regs.g ∧ u.regs.h = s.regs.h)

/-- STATUS is written by START, CHECK, PAD, ILLEGAL and FINALIZE only (R34), SALG by START and FINALIZE only; OUT and the sink by
the four emitting instructions; what the host has read by READ_STATUS; the host's turns, the operand on the port and the capacity
by no instruction. -/
def Obligations.StatusAndPortsFrame : Prop :=
  ∀ (i : Instr) (s u : State), exec i s = .next u →
    ((∀ inv, i ≠ .startSha1 inv) → (∀ inv, i ≠ .startSha256 inv) → (∀ c, i ≠ .illegal c) → (∀ alg, i ≠ .check alg) →
      (∀ alg, i ≠ .pad alg) → i ≠ .sha1Finalize → i ≠ .sha256Finalize → u.status = s.status) ∧
    ((∀ inv, i ≠ .startSha1 inv) → (∀ inv, i ≠ .startSha256 inv) → i ≠ .sha1Finalize → i ≠ .sha256Finalize →
      u.status.salg = s.status.salg) ∧
    (i ≠ .sha1Round → i ≠ .sha256Round → i ≠ .sha1Finalize → i ≠ .sha256Finalize → u.out = s.out ∧ u.sink = s.sink) ∧
    (i ≠ .readStatus → u.statusReads = s.statusReads) ∧
    u.host = s.host ∧ u.msgIn = s.msgIn ∧ u.msgCapacity = s.msgCapacity

/-! The whole machine. -/

/-- The transitions of R39, by the turn and the phase. The model's additions to them: a hold for the sink is a step that keeps PHASE
(R162, R220, R281; log entry 12), the engine's turn in IDLE, DONE and ERROR is a step that keeps it (log entry 9), EXPAND and ROUND
answer a next state only for T < NW and I < NR (log entry 11), and a `wait` is a turn (log entry 16). -/
def Obligations.PhaseTransitions : Prop :=
  ∀ s u : State, step s = .next u →
    (∀ c msg rest, s.host = .write c msg :: rest →
      (s.phase = 0x0 ∨ s.phase = 0xA ∨ s.phase = 0xB) ∧
      u.phase = if c &&& 0xFFFFFFDF#32 = 0x00000001#32 ∨ c &&& 0xFFFFFFDF#32 = 0x00000011#32 then 0x1 else 0xB) ∧
    (∀ rest, s.host = .reset :: rest → u.phase = 0x0) ∧
    (∀ rest, s.host = .read :: rest ∨ s.host = .wait :: rest → u.phase = s.phase) ∧
    ((s.host = [] ∨ ∃ rest, s.host = .engine :: rest) →
      ((s.phase = 0x0 ∨ s.phase = 0xA ∨ s.phase = 0xB) → u.phase = s.phase) ∧
      (s.phase = 0x1 → u.phase = if s.inv = true then 0xB else 0x2) ∧
      (s.phase = 0x2 → u.phase = if 2 ^ 64 ≤ 8 * s.len then 0xB else 0x3) ∧
      (s.phase = 0x3 → u.phase = 0x4) ∧
      (s.phase = 0x4 → u.phase = 0x5) ∧
      (s.phase = 0x5 → s.t < scheduleLength s.alg ∧ u.phase = if s.t + 1 < scheduleLength s.alg then 0x5 else 0x6) ∧
      (s.phase = 0x6 → u.phase = 0x7) ∧
      (s.phase = 0x7 → s.i < roundCount s.alg ∧
        u.phase = if s.sink.accepts = true ∧ s.i + 1 = roundCount s.alg then 0x8 else 0x7) ∧
      (s.phase = 0x8 → u.phase = if s.blk + 1 = s.n then 0x9 else 0x4) ∧
      (s.phase = 0x9 → u.phase = if s.sink.accepts = true then 0xA else 0x9))

/-- Reset, from every state (R270): PHASE = IDLE, STATUS = 0, OUT as it was. The values of the other registers are the model's own
(log entry 1), as is what stays with the host and the sink (log entry 14). -/
def Obligations.ResetReturnsToIdle : Prop :=
  ∀ (s : State) (rest : List Turn), s.host = .reset :: rest →
    ∃ u, step s = .next u ∧ u.phase = 0x0 ∧ statusWord u.status = 0x00000000 ∧ u.out = s.out ∧ u.host = rest ∧
      u = { State.reset with
        out := s.out
        host := rest
        msgIn := s.msgIn
        sink := s.sink
        statusReads := s.statusReads
        msgCapacity := s.msgCapacity }

/-- The invariant holds right after reset, with PHASE = IDLE, STATUS = 0 and no event. -/
def Obligations.ResetMeetsInvariant : Prop :=
  Inv State.reset ∧ State.reset.phase = 0x0 ∧ statusWord State.reset.status = 0x00000000 ∧ State.reset.out = []

/-- Every step keeps the canonical form of P. -/
def Obligations.BufferStaysCanonical : Prop :=
  ∀ s u : State, s.p.wf → step s = .next u → u.p.wf

/-- Every step keeps the invariant: PHASE is legal, STATUS agrees with PHASE, P is the padded message while it is used, BLK, T and
I stay in their ranges. -/
def Obligations.StepKeepsInvariant : Prop :=
  ∀ s u : State, Inv s → step s = .next u → Inv u

/-- Under the invariant no step faults: no index or offset is out of range, no code is reserved (R57, R76, R244). -/
def Obligations.InvariantExcludesFaults : Prop :=
  ∀ (s : State) (f : Fault), Inv s → step s ≠ .fault f

/-- Under the invariant the only refusals are the host's protocol violations: a command write while BUSY = 1 (R105) and a START
above MSG_CAPACITY (R106). That a START with INV = 1 is not among the latter is the model's reading (log entry 6). -/
def Obligations.OnlyProtocolViolationsRefused : Prop :=
  ∀ (s : State) (r : Refusal), Inv s → step s = .refused r →
    ∃ c msg rest, s.host = .write c msg :: rest ∧
      (r = .commandWhileBusy ∧ s.status.busy = true ∨
       r = .messageOverCapacity ∧ s.status.busy = false ∧ s.msgCapacity < msg.length ∧ msg.length ≤ 2 ^ 61 - 1 ∧
        (decode (.cmd c) = .ok (.startSha1 false) ∨ decode (.cmd c) = .ok (.startSha256 false)))

/-- No step depends on a register that is not live: two states that agree on the live registers and on what host and sink see give
the same outcome, and next states that agree again. So no register is read before a step has written it (R37), and the values the
model names for reset (log entry 1) and keeps after a computation (log entry 20) show in no run. -/
def Obligations.UnwrittenRegistersNeverRead : Prop :=
  ∀ s u : State, LiveAgree s u → resultAgree LiveAgree (step s) (step u)

/-- R225: no state carries from one computation to the next. From two states with the same STATUS, the same events so far and the
same host and sink, both in IDLE, both in DONE or both in ERROR, every run gives the same outcome, the same events and the same
STATUS, whatever the other registers hold. -/
def Obligations.NoStateCarriesOver : Prop :=
  ∀ (k : Nat) (s u : State), (s.phase = 0x0 ∨ s.phase = 0xA ∨ s.phase = 0xB) →
    (∃ (alg : Alg) (inv : Bool) (msg : List Byte) (len : Nat) (p : Memory) (n blk t i : Nat) (w : Vector Word32 80) (regs : Regs)
      (acc : Vector Word32 8),
      u = { s with alg := alg, inv := inv, msg := msg, len := len, p := p, n := n, blk := blk, t := t, i := i, w := w, regs := regs, acc := acc }) →
    resultAgree (fun x y => x.out = y.out ∧ x.status = y.status ∧ x.phase = y.phase ∧ x.statusReads = y.statusReads)
      (core.run k s) (core.run k u)

/-- R40, R62: from CHECK, with a message that can be hashed, no host turn and a sink that accepts, exactly
`3 + N * (1 + (NW - 16) + 1 + NR + 1) + 1` steps lead to DONE: every shorter run ends in one of CHECK to FINALIZE. The events appended
are the Round events of each block in order and one Digest, as the reference function of the algorithm and the message gives them. The
step count is `4 + 147 N` for SHA1 and `4 + 115 N` for SHA256. -/
def Obligations.ComputationRunsToDone : Prop :=
  (∀ n, computationSteps .sha1 n = 4 + 147 * n ∧ computationSteps .sha256 n = 4 + 115 * n) ∧
  ∀ s : State, s.phase = 0x1 → s.inv = false → s.len = s.msg.length → s.msg.length < 2 ^ 61 → s.status.errcode.toNat < 4 →
    s.host = [] → s.sink = ⟨[], true⟩ →
    (∀ k, k < computationSteps s.alg ((s.len + 8) / 64 + 1) →
      ∃ v : State, core.run k s = .next v ∧ 1 ≤ v.phase.toNat ∧ v.phase.toNat ≤ 9) ∧
    ∃ u, core.run (computationSteps s.alg ((s.len + 8) / 64 + 1)) s = .next u ∧ u.phase = 0xA ∧
      u.status = { busy := false, done := true, err := false, errcode := 0, salg := s.alg } ∧
      u.out = s.out ++ referenceEvents s.alg s.msg
end

