-- ==== Sys2Proof/Laws/Decode.lean ====
section
/-! SUPPORT. How a command word and a micro-operation word are made of their fields. -/

namespace Sys2Proof

/-- A command word is RSV, INV, ALG and OP, in that order (R70). -/
theorem commandWord_fields (c : Word32) :
    c = c.extractLsb' 6 26 ++ BitVec.ofBool (c.getLsbD 5) ++ BitVec.ofBool (c.getLsbD 4) ++ c.extractLsb' 0 4 := by
  apply BitVec.eq_of_getLsbD_eq
  intro k hk
  simp only [BitVec.getLsbD_append, BitVec.getLsbD_extractLsb', BitVec.getLsbD_ofBool]
  interval_cases k <;> simp

/-- A micro-operation word is three bits, ALG and PHASE, in that order (R75). -/
theorem uopWord_fields (u : Byte) : u = u.extractLsb' 5 3 ++ u.extractLsb' 4 1 ++ u.extractLsb' 0 4 := by
  apply BitVec.eq_of_getLsbD_eq
  intro k hk
  simp only [BitVec.getLsbD_append, BitVec.getLsbD_extractLsb']
  interval_cases k <;> simp

theorem extract_bit_four (c : Word32) : c.extractLsb' 4 1 = BitVec.ofBool (c.getLsbD 4) := by
  apply BitVec.eq_of_getLsbD_eq
  intro k hk
  interval_cases k
  simp

theorem ofBool_eq_zero_iff (b : Bool) : BitVec.ofBool b = 0#1 ↔ b = false := by
  cases b <;> decide

/-- A legal command word is one of four (R74). -/
theorem legal_fields_iff (c : Word32) :
    (c.extractLsb' 0 4 = 0x1#4 ∧ c.extractLsb' 6 26 = 0#26) ↔
      c = 0x00000001#32 ∨ c = 0x00000021#32 ∨ c = 0x00000011#32 ∨ c = 0x00000031#32 := by
  constructor
  · rintro ⟨hop, hrsv⟩
    have hc := commandWord_fields c
    rw [hop, hrsv] at hc
    cases h4 : c.getLsbD 4 <;> cases h5 : c.getLsbD 5 <;> rw [h4, h5] at hc
    · exact .inl hc
    · exact .inr (.inl hc)
    · exact .inr (.inr (.inl hc))
    · exact .inr (.inr (.inr hc))
  · rintro (rfl | rfl | rfl | rfl) <;> decide

/-- The mask of the opcode table says the same as the fields. -/
theorem legalCommand_iff (c : Word32) :
    legalCommand c = true ↔ c.extractLsb' 0 4 = 0x1#4 ∧ c.extractLsb' 6 26 = 0#26 := by
  constructor
  · intro h
    rw [legal_fields_iff]
    simp only [legalCommand, Bool.or_eq_true, beq_iff_eq] at h
    have hc : c = (c &&& 0xFFFFFFDF#32) ||| (c &&& 0x00000020#32) := by
      rw [← BitVec.and_or_distrib_left, show (0xFFFFFFDF#32 ||| 0x00000020#32) = BitVec.allOnes 32 by decide, BitVec.and_allOnes]
    have h5 : c &&& 0x00000020#32 = 0 ∨ c &&& 0x00000020#32 = 0x00000020#32 := by
      have : (0x00000020#32) = BitVec.twoPow 32 5 := by decide
      rw [this, BitVec.and_twoPow]
      split
      · exact .inr rfl
      · exact .inl rfl
    rcases h with h | h <;> rcases h5 with h5 | h5 <;> rw [h, h5] at hc
    · exact .inl hc
    · exact .inr (.inl hc)
    · exact .inr (.inr (.inl hc))
    · exact .inr (.inr (.inr hc))
  · rw [legal_fields_iff]
    rintro (rfl | rfl | rfl | rfl) <;> decide

/-- Each word decodes to the row it belongs to (R74). -/
theorem decodeCmd_cases (c : Word32) :
    (c = 0x00000001#32 ∧ decodeCmd c = .startSha1 false) ∨ (c = 0x00000021#32 ∧ decodeCmd c = .startSha1 true) ∨
    (c = 0x00000011#32 ∧ decodeCmd c = .startSha256 false) ∨ (c = 0x00000031#32 ∧ decodeCmd c = .startSha256 true) ∨
    (legalCommand c = false ∧ decodeCmd c = .illegal c) := by
  by_cases h : c.extractLsb' 0 4 = 0x1#4 ∧ c.extractLsb' 6 26 = 0#26
  · rcases (legal_fields_iff c).1 h with rfl | rfl | rfl | rfl <;> simp [decodeCmd]
  · refine .inr (.inr (.inr (.inr ⟨?_, if_neg h⟩)))
    rw [← legalCommand_iff] at h
    simpa using h

end Sys2Proof
end

