-- ==== Sys2Proof/Laws/Memory.lean ====
section
/-! SUPPORT. The laws of the padded buffer: a read after a write, that every write keeps the canonical form, what a run of byte
writes leaves, and when a block can be read. -/

namespace Sys2Proof.Machine

@[simp] theorem Memory.read_nil (a : Nat) : Memory.read [] a = none := rfl

theorem Memory.read_cons (b a : Nat) (v : Byte) (m : Memory) :
    Memory.read ((b, v) :: m) a = if a = b then some v else Memory.read m a := rfl

theorem State.reset_p_wf : State.reset.p.wf := by decide

/-- A read after a write at the same offset gives the byte written. -/
theorem Memory.read_write_same (m : Memory) (a : Nat) (v : Byte) : (m.write a v).read a = some v := by
  induction m with
  | nil => simp [Memory.write, Memory.read]
  | cons x m ih =>
    obtain ⟨b, u⟩ := x
    simp only [Memory.write]
    split
    · simp [Memory.read]
    · split
      · simp [Memory.read]
      · rename_i _ hne
        simp [Memory.read, hne, ih]

/-- A write leaves every other offset alone. -/
theorem Memory.read_write_other (m : Memory) {a c : Nat} (v : Byte) (h : c ≠ a) : (m.write a v).read c = m.read c := by
  induction m with
  | nil => simp [Memory.write, Memory.read, h]
  | cons x m ih =>
    obtain ⟨b, u⟩ := x
    simp only [Memory.write]
    split
    · simp [Memory.read, h]
    · split
      · rename_i _ heq
        subst heq
        simp [Memory.read, h]
      · simp [Memory.read, ih]

/-- The offsets of a buffer after a write: the old ones and the one written. -/
theorem Memory.mem_write {m : Memory} {a : Nat} {v : Byte} {x : Host.Cell} (h : x ∈ m.write a v) : x = (a, v) ∨ x ∈ m := by
  induction m with
  | nil => exact .inl (by simpa [Memory.write] using h)
  | cons y m ih =>
    obtain ⟨b, u⟩ := y
    simp only [Memory.write] at h
    split at h
    · simpa using h
    · split at h
      · rcases List.mem_cons.1 h with h | h
        · exact .inl h
        · exact .inr (List.mem_cons_of_mem _ h)
      · rcases List.mem_cons.1 h with h | h
        · exact .inr (h ▸ List.mem_cons_self)
        · exact (ih h).imp_right (List.mem_cons_of_mem _)

/-- A write keeps the canonical form. -/
theorem Memory.write_wf {m : Memory} (a : Nat) (v : Byte) (h : m.wf) : (m.write a v).wf := by
  induction m with
  | nil => simp [Memory.write, Memory.wf]
  | cons y m ih =>
    obtain ⟨b, u⟩ := y
    have hb := (List.pairwise_cons.1 h).1
    have hm := (List.pairwise_cons.1 h).2
    simp only [Memory.write]
    split
    · rename_i hlt
      refine List.pairwise_cons.2 ⟨fun x hx => ?_, h⟩
      rcases List.mem_cons.1 hx with rfl | hx
      · exact hlt
      · exact Nat.lt_trans hlt (hb x hx)
    · split
      · rename_i _ heq
        subst heq
        exact List.pairwise_cons.2 ⟨hb, hm⟩
      · rename_i h1 h2
        refine List.pairwise_cons.2 ⟨fun x hx => ?_, ih hm⟩
        rcases Memory.mem_write hx with rfl | hx
        · show b < a
          omega
        · exact hb x hx

/-- A run of byte writes keeps the canonical form. -/
theorem Memory.writeBytes_wf (vs : List Byte) : ∀ {m : Memory} (a : Nat), m.wf → (m.writeBytes a vs).wf := by
  induction vs with
  | nil => exact fun _ h => h
  | cons v vs ih => exact fun a h => ih (a + 1) (Memory.write_wf a v h)

/-- What a run of byte writes leaves: its bytes at its offsets, every other offset as before. -/
theorem Memory.read_writeBytes (vs : List Byte) :
    ∀ (m : Memory) (a c : Nat),
      (m.writeBytes a vs).read c = if a ≤ c ∧ c < a + vs.length then vs[c - a]? else m.read c := by
  induction vs with
  | nil =>
    intro m a c
    rw [Memory.writeBytes, if_neg (by simp only [List.length_nil]; omega)]
  | cons v vs ih =>
    intro m a c
    rw [Memory.writeBytes, ih]
    by_cases hc : c = a
    · subst hc
      rw [if_neg (by omega), Memory.read_write_same, if_pos (by simp), Nat.sub_self]
      rfl
    · rw [Memory.read_write_other m v hc]
      by_cases hr : a + 1 ≤ c ∧ c < a + 1 + vs.length
      · rw [if_pos hr, if_pos (by simp only [List.length_cons]; omega),
          show c - a = c - (a + 1) + 1 by omega, List.getElem?_cons_succ]
      · rw [if_neg hr, if_neg (by simp only [List.length_cons]; omega)]

/-- Writes past the end of a canonical buffer list the new bytes after the old ones. -/
theorem Memory.write_append {m : Memory} {a : Nat} (v : Byte) (h : ∀ x ∈ m, x.1 < a) : m.write a v = m ++ [(a, v)] := by
  induction m with
  | nil => rfl
  | cons y m ih =>
    obtain ⟨b, u⟩ := y
    have hb : b < a := h (b, u) List.mem_cons_self
    rw [Memory.write, if_neg (by omega), if_neg (by omega), ih fun x hx => h x (List.mem_cons_of_mem _ hx)]
    rfl

/-- A run of byte writes past the end makes the buffer longer by the bytes written. -/
theorem Memory.length_writeBytes (vs : List Byte) :
    ∀ (m : Memory) (a : Nat), (∀ x ∈ m, x.1 < a) → (m.writeBytes a vs).length = m.length + vs.length := by
  induction vs with
  | nil => exact fun _ _ _ => rfl
  | cons v vs ih =>
    intro m a h
    rw [Memory.writeBytes, Memory.write_append v h, ih]
    · simp only [List.length_append, List.length_cons, List.length_nil]
      omega
    · intro x hx
      rcases List.mem_append.1 hx with hx | hx
      · have := h x hx
        omega
      · rw [List.mem_singleton.1 hx]
        exact Nat.lt_succ_self a

/-! The padded message. -/

theorem zeroCount_eq (len : Nat) : (zeroCount len : Int) = (55 - (len : Int)) % 64 := by
  unfold zeroCount
  omega

theorem zeroCount_lt (len : Nat) : zeroCount len < 64 := by
  unfold zeroCount
  omega

/-- The zero fill brings the message and its 1 bit to 56 bytes modulo 64 (R121). -/
theorem zeroCount_fills (len : Nat) : (len + 1 + zeroCount len) % 64 = 56 := by
  unfold zeroCount
  omega

@[simp] theorem length_be64bytes (v : Word64) : (be64bytes v).length = 8 := rfl

theorem length_padBytes (msg : List Byte) : (padBytes msg).length = msg.length + 1 + zeroCount msg.length + 8 := by
  simp [padBytes]
  omega

theorem length_padBytes_blocks (msg : List Byte) : (padBytes msg).length = 64 * blockCount msg.length := by
  have := zeroCount_fills msg.length
  rw [length_padBytes, blockCount]
  omega

theorem blockCount_eq (len : Nat) : blockCount len = (len + 8) / 64 + 1 := by
  have := zeroCount_eq len
  have := zeroCount_lt len
  rw [blockCount]
  omega

theorem blockCount_pos (len : Nat) : 0 < blockCount len := by
  rw [blockCount_eq]
  omega

theorem paddedBuffer_wf (msg : List Byte) : (paddedBuffer msg).wf :=
  Memory.writeBytes_wf _ 0 (by decide)

theorem length_paddedBuffer (msg : List Byte) : (paddedBuffer msg).length = (padBytes msg).length := by
  rw [paddedBuffer, Memory.length_writeBytes _ _ _ (by simp)]
  simp

/-- Each byte of the padded buffer is that byte of the padded message, and none lies beyond. -/
theorem read_paddedBuffer (msg : List Byte) (a : Nat) : (paddedBuffer msg).read a = (padBytes msg)[a]? := by
  rw [paddedBuffer, Memory.read_writeBytes]
  by_cases h : a < (padBytes msg).length
  · rw [if_pos (by omega), Nat.sub_zero]
  · rw [if_neg (by omega), List.getElem?_eq_none (by omega), Memory.read_nil]

theorem padBytes_message {msg : List Byte} {a : Nat} (h : a < msg.length) : (padBytes msg)[a]? = msg[a]? := by
  rw [padBytes, List.append_assoc, List.append_assoc, List.getElem?_append_left h]

theorem padBytes_one (msg : List Byte) : (padBytes msg)[msg.length]? = some 0x80 := by
  simp [padBytes]

theorem padBytes_zero {msg : List Byte} {a : Nat} (h1 : msg.length < a) (h2 : a ≤ msg.length + zeroCount msg.length) :
    (padBytes msg)[a]? = some 0x00 := by
  rw [padBytes, List.getElem?_append_left (by simp; omega), List.getElem?_append_right (by simp; omega),
    List.getElem?_replicate, if_pos (by simp; omega)]

theorem padBytes_length_field (msg : List Byte) (j : Nat) :
    (padBytes msg)[msg.length + 1 + zeroCount msg.length + j]? = (be64bytes (BitVec.ofNat 64 (8 * msg.length)))[j]? := by
  rw [padBytes, List.getElem?_append_right (by simp; omega)]
  congr 1
  simp
  omega

/-! Reading words. -/

theorem Memory.readWord_eq {m : Memory} {a : Nat} {b0 b1 b2 b3 : Byte} (h0 : m.read a = some b0) (h1 : m.read (a + 1) = some b1)
    (h2 : m.read (a + 2) = some b2) (h3 : m.read (a + 3) = some b3) : m.readWord a = some (be32 b0 b1 b2 b3) := by
  rw [Memory.readWord, h0, h1, h2, h3]

/-- Words can be read where every byte of them is held, and they are the big-endian words of those bytes. -/
theorem Memory.readWords_eq (m : Memory) (byte : Nat → Byte) :
    ∀ (count a : Nat), (∀ k, k < 4 * count → m.read (a + k) = some (byte k)) →
      m.readWords a count
        = some ((List.range count).map fun j => be32 (byte (4 * j)) (byte (4 * j + 1)) (byte (4 * j + 2)) (byte (4 * j + 3))) := by
  intro count
  induction count generalizing byte with
  | zero => exact fun _ _ => rfl
  | succ count ih =>
    intro a h
    have hw : m.readWord a = some (be32 (byte 0) (byte 1) (byte 2) (byte 3)) :=
      Memory.readWord_eq (h 0 (by omega)) (h 1 (by omega)) (h 2 (by omega)) (h 3 (by omega))
    have hrest := ih (fun k => byte (4 + k)) (a + 4) fun k hk => by
      rw [Nat.add_assoc]
      exact h (4 + k) (by omega)
    rw [Memory.readWords, hw, hrest, List.range_succ_eq_map, List.map_cons, List.map_map]
    refine congrArg (fun l => some (_ :: l)) (List.map_congr_left fun j _ => ?_)
    simp only [Function.comp_apply, Nat.succ_eq_add_one]
    congr 2 <;> omega

/-- The first entries are replaced, the others kept. -/
theorem setFirstWords_get (w : Vector Word32 80) (ws : List Word32) (j : Nat) (h : j < 80) :
    (setFirstWords w ws)[j] = ws[j]?.getD w[j] := by
  simp [setFirstWords]

end Sys2Proof.Machine
end

