-- ==== Sys2Proof/Laws/State.lean ====
section
/-! SUPPORT. What each named update of the state leaves in each field, true by computation: no later proof unfolds an update. -/

namespace Sys2Proof.Machine

/-! The error entry (R250). -/

@[simp] theorem raise_phase (x : Exception) (s : State) : (raise x s).phase = Phase.error := rfl
@[simp] theorem raise_alg (x : Exception) (s : State) : (raise x s).alg = s.alg := rfl
@[simp] theorem raise_inv (x : Exception) (s : State) : (raise x s).inv = s.inv := rfl
@[simp] theorem raise_msg (x : Exception) (s : State) : (raise x s).msg = s.msg := rfl
@[simp] theorem raise_len (x : Exception) (s : State) : (raise x s).len = s.len := rfl
@[simp] theorem raise_p (x : Exception) (s : State) : (raise x s).p = s.p := rfl
@[simp] theorem raise_n (x : Exception) (s : State) : (raise x s).n = s.n := rfl
@[simp] theorem raise_blk (x : Exception) (s : State) : (raise x s).blk = s.blk := rfl
@[simp] theorem raise_t (x : Exception) (s : State) : (raise x s).t = s.t := rfl
@[simp] theorem raise_i (x : Exception) (s : State) : (raise x s).i = s.i := rfl
@[simp] theorem raise_w (x : Exception) (s : State) : (raise x s).w = s.w := rfl
@[simp] theorem raise_regs (x : Exception) (s : State) : (raise x s).regs = s.regs := rfl
@[simp] theorem raise_acc (x : Exception) (s : State) : (raise x s).acc = s.acc := rfl
@[simp] theorem raise_status (x : Exception) (s : State) : (raise x s).status = statusFailed x s.status := rfl
@[simp] theorem raise_out (x : Exception) (s : State) : (raise x s).out = s.out := rfl
@[simp] theorem raise_host (x : Exception) (s : State) : (raise x s).host = s.host := rfl
@[simp] theorem raise_msgIn (x : Exception) (s : State) : (raise x s).msgIn = s.msgIn := rfl
@[simp] theorem raise_sink (x : Exception) (s : State) : (raise x s).sink = s.sink := rfl
@[simp] theorem raise_statusReads (x : Exception) (s : State) : (raise x s).statusReads = s.statusReads := rfl
@[simp] theorem raise_msgCapacity (x : Exception) (s : State) : (raise x s).msgCapacity = s.msgCapacity := rfl

/-! The beginning of a computation (R101, R102). -/

@[simp] theorem beginComputation_phase (alg : Alg) (inv : Bool) (s : State) :
    (beginComputation alg inv s).phase = Phase.check := rfl
@[simp] theorem beginComputation_alg (alg : Alg) (inv : Bool) (s : State) :
    (beginComputation alg inv s).alg = alg := rfl
@[simp] theorem beginComputation_inv (alg : Alg) (inv : Bool) (s : State) :
    (beginComputation alg inv s).inv = inv := rfl
@[simp] theorem beginComputation_msg (alg : Alg) (inv : Bool) (s : State) :
    (beginComputation alg inv s).msg = if inv then s.msg else s.msgIn := rfl
@[simp] theorem beginComputation_len (alg : Alg) (inv : Bool) (s : State) :
    (beginComputation alg inv s).len = if inv then s.len else s.msgIn.length := rfl
@[simp] theorem beginComputation_p (alg : Alg) (inv : Bool) (s : State) :
    (beginComputation alg inv s).p = s.p := rfl
@[simp] theorem beginComputation_n (alg : Alg) (inv : Bool) (s : State) :
    (beginComputation alg inv s).n = s.n := rfl
@[simp] theorem beginComputation_blk (alg : Alg) (inv : Bool) (s : State) :
    (beginComputation alg inv s).blk = s.blk := rfl
@[simp] theorem beginComputation_t (alg : Alg) (inv : Bool) (s : State) :
    (beginComputation alg inv s).t = s.t := rfl
@[simp] theorem beginComputation_i (alg : Alg) (inv : Bool) (s : State) :
    (beginComputation alg inv s).i = s.i := rfl
@[simp] theorem beginComputation_w (alg : Alg) (inv : Bool) (s : State) :
    (beginComputation alg inv s).w = s.w := rfl
@[simp] theorem beginComputation_regs (alg : Alg) (inv : Bool) (s : State) :
    (beginComputation alg inv s).regs = s.regs := rfl
@[simp] theorem beginComputation_acc (alg : Alg) (inv : Bool) (s : State) :
    (beginComputation alg inv s).acc = s.acc := rfl
@[simp] theorem beginComputation_status (alg : Alg) (inv : Bool) (s : State) :
    (beginComputation alg inv s).status = statusRunning alg := rfl
@[simp] theorem beginComputation_out (alg : Alg) (inv : Bool) (s : State) :
    (beginComputation alg inv s).out = s.out := rfl
@[simp] theorem beginComputation_host (alg : Alg) (inv : Bool) (s : State) :
    (beginComputation alg inv s).host = s.host := rfl
@[simp] theorem beginComputation_msgIn (alg : Alg) (inv : Bool) (s : State) :
    (beginComputation alg inv s).msgIn = s.msgIn := rfl
@[simp] theorem beginComputation_sink (alg : Alg) (inv : Bool) (s : State) :
    (beginComputation alg inv s).sink = s.sink := rfl
@[simp] theorem beginComputation_statusReads (alg : Alg) (inv : Bool) (s : State) :
    (beginComputation alg inv s).statusReads = s.statusReads := rfl
@[simp] theorem beginComputation_msgCapacity (alg : Alg) (inv : Bool) (s : State) :
    (beginComputation alg inv s).msgCapacity = s.msgCapacity := rfl

/-! Reset (R270). -/

@[simp] theorem resetEngine_phase (s : State) : (resetEngine s).phase = State.reset.phase := rfl
@[simp] theorem resetEngine_alg (s : State) : (resetEngine s).alg = State.reset.alg := rfl
@[simp] theorem resetEngine_inv (s : State) : (resetEngine s).inv = State.reset.inv := rfl
@[simp] theorem resetEngine_msg (s : State) : (resetEngine s).msg = State.reset.msg := rfl
@[simp] theorem resetEngine_len (s : State) : (resetEngine s).len = State.reset.len := rfl
@[simp] theorem resetEngine_p (s : State) : (resetEngine s).p = State.reset.p := rfl
@[simp] theorem resetEngine_n (s : State) : (resetEngine s).n = State.reset.n := rfl
@[simp] theorem resetEngine_blk (s : State) : (resetEngine s).blk = State.reset.blk := rfl
@[simp] theorem resetEngine_t (s : State) : (resetEngine s).t = State.reset.t := rfl
@[simp] theorem resetEngine_i (s : State) : (resetEngine s).i = State.reset.i := rfl
@[simp] theorem resetEngine_w (s : State) : (resetEngine s).w = State.reset.w := rfl
@[simp] theorem resetEngine_regs (s : State) : (resetEngine s).regs = State.reset.regs := rfl
@[simp] theorem resetEngine_acc (s : State) : (resetEngine s).acc = State.reset.acc := rfl
@[simp] theorem resetEngine_status (s : State) : (resetEngine s).status = State.reset.status := rfl
@[simp] theorem resetEngine_out (s : State) : (resetEngine s).out = s.out := rfl
@[simp] theorem resetEngine_host (s : State) : (resetEngine s).host = s.host := rfl
@[simp] theorem resetEngine_msgIn (s : State) : (resetEngine s).msgIn = s.msgIn := rfl
@[simp] theorem resetEngine_sink (s : State) : (resetEngine s).sink = s.sink := rfl
@[simp] theorem resetEngine_statusReads (s : State) : (resetEngine s).statusReads = s.statusReads := rfl
@[simp] theorem resetEngine_msgCapacity (s : State) : (resetEngine s).msgCapacity = s.msgCapacity := rfl

/-! STATUS (R34). -/

@[simp] theorem statusRunning_busy (alg : Alg) : (statusRunning alg).busy = true := rfl
@[simp] theorem statusRunning_done (alg : Alg) : (statusRunning alg).done = false := rfl
@[simp] theorem statusRunning_err (alg : Alg) : (statusRunning alg).err = false := rfl
@[simp] theorem statusRunning_errcode (alg : Alg) : (statusRunning alg).errcode = 0 := rfl
@[simp] theorem statusRunning_salg (alg : Alg) : (statusRunning alg).salg = alg := rfl
@[simp] theorem statusFinished_busy (alg : Alg) : (statusFinished alg).busy = false := rfl
@[simp] theorem statusFinished_done (alg : Alg) : (statusFinished alg).done = true := rfl
@[simp] theorem statusFinished_err (alg : Alg) : (statusFinished alg).err = false := rfl
@[simp] theorem statusFinished_errcode (alg : Alg) : (statusFinished alg).errcode = 0 := rfl
@[simp] theorem statusFinished_salg (alg : Alg) : (statusFinished alg).salg = alg := rfl
@[simp] theorem statusFailed_busy (x : Exception) (st : Status) : (statusFailed x st).busy = false := rfl
@[simp] theorem statusFailed_done (x : Exception) (st : Status) : (statusFailed x st).done = false := rfl
@[simp] theorem statusFailed_err (x : Exception) (st : Status) : (statusFailed x st).err = true := rfl
@[simp] theorem statusFailed_errcode (x : Exception) (st : Status) : (statusFailed x st).errcode = exceptionCode x := rfl
@[simp] theorem statusFailed_salg (x : Exception) (st : Status) : (statusFailed x st).salg = st.salg := rfl

end Sys2Proof.Machine
end

