-- ==== Sys2Proof/Laws/Ops.lean ====
section
/-! SUPPORT. One lemma for each shared operation, and one for each meaning, that says once everything it can answer as a next
state. -/

namespace Sys2Proof.Machine

/-! The command port. -/

theorem acceptsCommand_iff (phase : BitVec 4) :
    acceptsCommand phase = true ↔ phase = Phase.idle ∨ phase = Phase.done ∨ phase = Phase.error := by
  simp [acceptsCommand, or_assoc]

theorem onCommand_accepted {s : State} (r : Result) (h : acceptsCommand s.phase = true) : onCommand s r = r := by
  rw [onCommand, if_pos h]

/-- While a computation runs a command write is refused (R105). -/
theorem onCommand_busy {s : State} (r : Result) (h : 1 ≤ s.phase.toNat ∧ s.phase.toNat ≤ 9) :
    onCommand s r = .refused .commandWhileBusy := by
  have ha : acceptsCommand s.phase ≠ true := by
    rw [ne_eq, acceptsCommand_iff]
    rintro (h0 | h0 | h0) <;> rw [h0] at h <;> revert h <;> decide
  have hr : ¬ phaseReserved s.phase = true := by
    simp only [phaseReserved, decide_eq_true_eq]
    omega
  rw [onCommand, if_neg ha, if_neg hr]

theorem onCommand_next {s u : State} {r : Result} (h : onCommand s r = .next u) : acceptsCommand s.phase = true ∧ r = .next u := by
  unfold onCommand at h
  split at h
  · exact ⟨‹_›, h⟩
  · split at h <;> cases h

/-- R106. -/
theorem overCapacity_iff (s : State) :
    overCapacity s = true ↔ s.msgCapacity < s.msgIn.length ∧ s.msgIn.length ≤ 2 ^ 61 - 1 := by
  rw [overCapacity, Bool.and_eq_true, decide_eq_true_eq, decide_eq_true_eq]
  rfl

theorem overCapacity_eq_false {s : State} (h : s.msgIn.length ≤ s.msgCapacity ∨ 2 ^ 61 ≤ s.msgIn.length) :
    overCapacity s = false := by
  rw [← Bool.not_eq_true, overCapacity_iff]
  omega

theorem startCommand_next {alg : Alg} {inv : Bool} {s u : State} (h : startCommand alg inv s = .next u) :
    acceptsCommand s.phase = true ∧ (!inv && overCapacity s) = false ∧ u = beginComputation alg inv s := by
  obtain ⟨ha, h⟩ := onCommand_next h
  split at h
  · cases h
  · rename_i hc
    cases h
    exact ⟨ha, by simpa using hc, rfl⟩

theorem startCommand_accepted {alg : Alg} {inv : Bool} {s : State} (ha : acceptsCommand s.phase = true)
    (hc : (!inv && overCapacity s) = false) : startCommand alg inv s = .next (beginComputation alg inv s) := by
  rw [startCommand, onCommand_accepted _ ha, if_neg (by simp [hc])]

/-! The sink. -/

/-- An emitting step happens when the sink accepts, and otherwise the engine holds (R281). -/
theorem emitOrHold_cases (e : Event) (t s : State) :
    (s.sink.accepts = true ∧ emitOrHold e t s = .next { t with out := s.out ++ [e], sink := s.sink.answered }) ∨
    (s.sink.accepts = false ∧ emitOrHold e t s = .next { s with sink := s.sink.answered }) := by
  unfold emitOrHold
  cases h : s.sink.accepts
  · exact .inr ⟨rfl, if_neg (by simp)⟩
  · exact .inl ⟨rfl, if_pos rfl⟩

theorem emitOrHold_next {e : Event} {t s u : State} (h : emitOrHold e t s = .next u) :
    (s.sink.accepts = true ∧ u = { t with out := s.out ++ [e], sink := s.sink.answered }) ∨
    (s.sink.accepts = false ∧ u = { s with sink := s.sink.answered }) := by
  rcases emitOrHold_cases e t s with ⟨ha, hr⟩ | ⟨ha, hr⟩ <;> rw [hr] at h <;> cases h
  · exact .inl ⟨ha, rfl⟩
  · exact .inr ⟨ha, rfl⟩

theorem emitOrHold_accepted {e : Event} {t s : State} (h : s.sink.accepts = true) :
    emitOrHold e t s = .next { t with out := s.out ++ [e], sink := s.sink.answered } := if_pos h

theorem emitOrHold_held {e : Event} {t s : State} (h : s.sink.accepts = false) :
    emitOrHold e t s = .next { s with sink := s.sink.answered } := if_neg (by simp [h])

/-! The message. -/

theorem messageBytes_whole {s : State} (h : s.len = s.msg.length) : messageBytes s = some s.msg := by
  rw [messageBytes, if_pos (by omega), h, List.take_length]

/-! What each meaning that does more than one thing can answer. -/

theorem execCheck_next {s u : State} (h : execCheck s = .next u) :
    (s.inv = true ∧ u = raise .invalidInput s) ∨ (s.inv = false ∧ u = { s with phase := Phase.pad }) := by
  unfold execCheck at h
  split at h <;> cases h
  · exact .inl ⟨‹_›, rfl⟩
  · exact .inr ⟨by simpa using ‹¬ s.inv = true›, rfl⟩

theorem execPad_next {s u : State} (h : execPad s = .next u) :
    (2 ^ 61 ≤ s.len ∧ u = raise .lengthOverflow s) ∨
    (s.len < 2 ^ 61 ∧ s.len ≤ s.msg.length ∧
      u = { s with p := paddedBuffer (s.msg.take s.len), n := blockCount s.len, phase := Phase.initAcc }) := by
  unfold execPad at h
  split at h
  · cases h
    exact .inl ⟨‹_›, rfl⟩
  · rename_i hl
    unfold messageBytes at h
    by_cases hm : s.len ≤ s.msg.length
    · rw [if_pos hm] at h
      cases h
      exact .inr ⟨by omega, hm, rfl⟩
    · rw [if_neg hm] at h
      cases h

theorem execLoadBlock_next {s u : State} (h : execLoadBlock s = .next u) :
    ∃ words, s.p.readWords (64 * s.blk) 16 = some words ∧
      u = { s with w := setFirstWords s.w words, t := 16, phase := Phase.expand } := by
  unfold execLoadBlock at h
  split at h <;> cases h
  exact ⟨_, ‹_›, rfl⟩

theorem execSha1Expand_next {s u : State} (h : execSha1Expand s = .next u) :
    ∃ hr : 16 ≤ s.t ∧ s.t < 80,
      u = { s with
        w := s.w.set s.t (sha1ScheduleWord s.w s.t hr) hr.2
        t := s.t + 1
        phase := if s.t + 1 = 80 then Phase.initWs else Phase.expand } := by
  unfold execSha1Expand at h
  split at h <;> cases h
  exact ⟨‹_›, rfl⟩

theorem execSha256Expand_next {s u : State} (h : execSha256Expand s = .next u) :
    ∃ hr : 16 ≤ s.t ∧ s.t < 64,
      u = { s with
        w := s.w.set s.t (sha256ScheduleWord s.w s.t hr) (Nat.lt_trans hr.2 (by decide))
        t := s.t + 1
        phase := if s.t + 1 = 64 then Phase.initWs else Phase.expand } := by
  unfold execSha256Expand at h
  split at h <;> cases h
  exact ⟨‹_›, rfl⟩

theorem execSha1Round_next {s u : State} (h : execSha1Round s = .next u) :
    ∃ hr : s.i < 80,
      (s.sink.accepts = true ∧
        u = { s with
          regs := sha1RoundRegs s.i s.w[s.i] s.regs
          i := s.i + 1
          phase := if s.i + 1 = 80 then Phase.fold else Phase.round
          out := s.out ++ [.round (s.i + 1) (sha1Snapshot (sha1RoundRegs s.i s.w[s.i] s.regs))]
          sink := s.sink.answered }) ∨
      (s.sink.accepts = false ∧ u = { s with sink := s.sink.answered }) := by
  unfold execSha1Round at h
  split at h
  · exact ⟨‹_›, emitOrHold_next h⟩
  · cases h

theorem execSha256Round_next {s u : State} (h : execSha256Round s = .next u) :
    ∃ hr : s.i < 64,
      (s.sink.accepts = true ∧
        u = { s with
          regs := sha256RoundRegs (k256 s.i hr) (s.w[s.i]'(Nat.lt_trans hr (by decide))) s.regs
          i := s.i + 1
          phase := if s.i + 1 = 64 then Phase.fold else Phase.round
          out := s.out ++ [.round (s.i + 1)
            (sha256Snapshot (sha256RoundRegs (k256 s.i hr) (s.w[s.i]'(Nat.lt_trans hr (by decide))) s.regs))]
          sink := s.sink.answered }) ∨
      (s.sink.accepts = false ∧ u = { s with sink := s.sink.answered }) := by
  unfold execSha256Round at h
  split at h
  · exact ⟨‹_›, emitOrHold_next h⟩
  · cases h

end Sys2Proof.Machine
end

