-- ==== Sys2Proof/Laws/PerInstr.lean ====
section
/-! SUPPORT. A statement made for each instruction: the form its encoding has. Commands are command words, the STATUS read has no
word, and every micro-operation word has bits 7:5 zero (R70, R75). -/

namespace Sys2Proof.Laws.EncodedForm

/-- The encoding has the format the table gives the row. -/
def Statement (i : Instr) : Prop :=
  match encode i with
  | .cmd _ => (∃ inv, i = .startSha1 inv) ∨ (∃ inv, i = .startSha256 inv) ∨ ∃ c, i = .illegal c
  | .statusRead => i = .readStatus
  | .uop u => u.extractLsb' 5 3 = 0#3

/-- Bits 7:5 of a micro-operation word are zero. -/
theorem uopWord_high (alg : Alg) (phase : BitVec 4) : (uopWord alg phase).extractLsb' 5 3 = 0#3 := by
  cases alg <;> revert phase <;> decide

theorem startSha1 (inv : Bool) : Statement (.startSha1 inv) := .inl ⟨inv, rfl⟩
theorem startSha256 (inv : Bool) : Statement (.startSha256 inv) := .inr (.inl ⟨inv, rfl⟩)
theorem illegal (c : Word32) : Statement (.illegal c) := .inr (.inr ⟨c, rfl⟩)
theorem readStatus : Statement .readStatus := rfl
theorem idle (alg : Alg) : Statement (.idle alg) := uopWord_high alg _
theorem check (alg : Alg) : Statement (.check alg) := uopWord_high alg _
theorem pad (alg : Alg) : Statement (.pad alg) := uopWord_high alg _
theorem sha1InitAcc : Statement .sha1InitAcc := uopWord_high _ _
theorem sha256InitAcc : Statement .sha256InitAcc := uopWord_high _ _
theorem loadBlock (alg : Alg) : Statement (.loadBlock alg) := uopWord_high alg _
theorem sha1Expand : Statement .sha1Expand := uopWord_high _ _
theorem sha256Expand : Statement .sha256Expand := uopWord_high _ _
theorem sha1InitWs : Statement .sha1InitWs := uopWord_high _ _
theorem sha256InitWs : Statement .sha256InitWs := uopWord_high _ _
theorem sha1Round : Statement .sha1Round := uopWord_high _ _
theorem sha256Round : Statement .sha256Round := uopWord_high _ _
theorem sha1Fold : Statement .sha1Fold := uopWord_high _ _
theorem sha256Fold : Statement .sha256Fold := uopWord_high _ _
theorem sha1Finalize : Statement .sha1Finalize := uopWord_high _ _
theorem sha256Finalize : Statement .sha256Finalize := uopWord_high _ _
theorem done (alg : Alg) : Statement (.done alg) := uopWord_high alg _
theorem error (alg : Alg) : Statement (.error alg) := uopWord_high alg _
theorem reservedPhase (alg : Alg) (code : BitVec 4) : Statement (.reservedPhase alg code) := uopWord_high alg code

end Sys2Proof.Laws.EncodedForm
end

