-- ==== Sys2Proof/Laws/Step.lean ====
section
/-! SUPPORT. What one step can do, said once, and how runs compose. -/

namespace Sys2Proof.Machine

/-! The state an instruction runs in: only the host's turns and the message operand on the port may differ. -/

theorem presented_eq (s : State) : ∃ turns operand, (presented s).2 = { s with host := turns, msgIn := operand } := by
  unfold presented
  split <;> exact ⟨_, _, rfl⟩

/-- Without a meaningless code, a step that is no reset runs the instruction its turn presents. -/
theorem meaninglessState_none {s : State} (hp : s.phase.toNat < 12) (he : s.status.errcode.toNat < 4) :
    meaninglessState s = none := by
  have h1 : ¬ phaseReserved s.phase = true := by
    simp only [phaseReserved, decide_eq_true_eq]
    omega
  have h2 : ¬ errcodeReserved s.status = true := by
    simp only [errcodeReserved, decide_eq_true_eq]
    omega
  rw [meaninglessState, if_neg h1, if_neg h2]

theorem meaninglessState_range {s : State} (h : meaninglessState s = none) :
    s.phase.toNat < 12 ∧ s.status.errcode.toNat < 4 := by
  unfold meaninglessState at h
  split at h
  · cases h
  · split at h
    · cases h
    · rename_i h1 h2
      simp only [phaseReserved, errcodeReserved, decide_eq_true_eq, not_le] at h1 h2
      exact ⟨h1, h2⟩

/-- What a step is when its turn is no reset. -/
theorem step_no_reset {s : State} (h : ∀ rest, s.host ≠ .reset :: rest) :
    step s =
      match meaninglessState s with
      | some fault => .fault fault
      | none =>
        match decode (presented s).1 with
        | .ok i => exec i (presented s).2
        | .error _ => .refused .notAnInstruction := by
  unfold step
  split
  · exact absurd ‹_› (h _)
  · rfl

theorem step_reset {s : State} {rest : List Turn} (h : s.host = .reset :: rest) :
    step s = .next (resetEngine { s with host := rest }) := by
  unfold step
  rw [h]

/-- A step to a next state is a reset, or one instruction: the one its turn presents. -/
theorem step_cases {s u : State} (h : step s = .next u) :
    (∃ rest, s.host = .reset :: rest ∧ u = resetEngine { s with host := rest }) ∨
    ((∀ rest, s.host ≠ .reset :: rest) ∧ meaninglessState s = none ∧
      ∃ i, decode (presented s).1 = .ok i ∧ exec i (presented s).2 = .next u) := by
  by_cases hr : ∃ rest, s.host = .reset :: rest
  · obtain ⟨rest, hr⟩ := hr
    rw [step_reset hr] at h
    cases h
    exact .inl ⟨rest, hr, rfl⟩
  · have hr : ∀ rest, s.host ≠ .reset :: rest := fun rest hh => hr ⟨rest, hh⟩
    rw [step_no_reset hr] at h
    split at h
    · cases h
    · split at h
      · exact .inr ⟨hr, ‹_›, _, ‹_›, h⟩
      · cases h

/-! The step by its turn. -/

/-- The engine's turn: nothing stands in the host's turns, or an engine turn does. -/
def engineTurn (s : State) : Prop :=
  s.host = [] ∨ ∃ rest, s.host = .engine :: rest

/-- The micro-operation word of the engine's turn decodes to the instruction of its phase. -/
theorem decodeUop_uopWord (alg : Alg) (phase : BitVec 4) : decodeUop (uopWord alg phase) = .ok (decodePhase alg phase) := by
  cases alg <;> revert phase <;> decide

theorem engineTurn_no_reset {s : State} (h : engineTurn s) (rest : List Turn) : s.host ≠ .reset :: rest := by
  rcases h with h | ⟨_, h⟩ <;> rw [h] <;> simp

/-- On the engine's turn a step runs the micro-operation `(ALG << 4) | PHASE` names. -/
theorem step_engine {s : State} (ht : engineTurn s) (hm : meaninglessState s = none) :
    step s = exec (decodePhase s.alg s.phase) { s with host := s.host.tail } := by
  have hp : presented s = (.uop (uopWord s.alg s.phase), { s with host := s.host.tail }) := by
    rcases ht with h | ⟨rest, h⟩
    · have hs : { s with host := s.host.tail } = s := by
        rw [h]
        exact congrArg (fun x => { s with host := x }) h.symm
      rw [hs]
      simp only [presented, h]
    · simp only [presented, h, List.tail_cons]
  rw [step_no_reset (engineTurn_no_reset ht), hm, hp]
  simp only [decode, decodeUop_uopWord]

/-- On a command write a step runs what the word decodes to, with the message operand on the port. -/
theorem step_write {s : State} {c : Word32} {msg : List Byte} {rest : List Turn} (h : s.host = .write c msg :: rest)
    (hm : meaninglessState s = none) : step s = exec (decodeCmd c) { s with host := rest, msgIn := msg } := by
  rw [step_no_reset (by rw [h]; simp), hm]
  simp only [presented, h, decode]

/-- On a read or a wait a step records the STATUS word and touches nothing of the engine. -/
theorem step_read {s : State} {rest : List Turn} (h : s.host = .read :: rest ∨ s.host = .wait :: rest)
    (hm : meaninglessState s = none) :
    ∃ turns, step s = .next { s with host := turns, statusReads := s.statusReads ++ [statusWord s.status] } := by
  rw [step_no_reset (by rcases h with h | h <;> rw [h] <;> simp), hm]
  rcases h with h | h <;> simp only [presented, h, decode] <;> exact ⟨_, rfl⟩

/-- Everything a step to a next state can be: a reset, a read or a wait, a command write, or the engine's micro-operation. -/
theorem step_next_cases {s u : State} (h : step s = .next u) :
    (∃ rest, s.host = .reset :: rest ∧ u = resetEngine { s with host := rest }) ∨
    (meaninglessState s = none ∧
      ((∃ turns, (∃ rest, s.host = .read :: rest ∨ s.host = .wait :: rest) ∧
          u = { s with host := turns, statusReads := s.statusReads ++ [statusWord s.status] }) ∨
       (∃ c msg rest, s.host = .write c msg :: rest ∧ exec (decodeCmd c) { s with host := rest, msgIn := msg } = .next u) ∨
       (engineTurn s ∧ exec (decodePhase s.alg s.phase) { s with host := s.host.tail } = .next u))) := by
  rcases step_cases h with hr | ⟨hr, hm, _⟩
  · exact .inl hr
  · refine .inr ⟨hm, ?_⟩
    cases hh : s.host with
    | nil =>
      have ht : engineTurn s := .inl hh
      rw [step_engine ht hm, hh] at h
      exact .inr (.inr ⟨ht, h⟩)
    | cons turn rest =>
      cases turn with
      | engine =>
        have ht : engineTurn s := .inr ⟨rest, hh⟩
        rw [step_engine ht hm, hh] at h
        exact .inr (.inr ⟨ht, h⟩)
      | write c msg =>
        rw [step_write hh hm] at h
        exact .inr (.inl ⟨c, msg, rest, rfl, h⟩)
      | read =>
        obtain ⟨turns, ht⟩ := step_read (.inl hh) hm
        rw [ht] at h
        cases h
        exact .inl ⟨turns, ⟨rest, .inl rfl⟩, rfl⟩
      | wait =>
        obtain ⟨turns, ht⟩ := step_read (.inr hh) hm
        rw [ht] at h
        cases h
        exact .inl ⟨turns, ⟨rest, .inr rfl⟩, rfl⟩
      | reset => exact absurd hh (hr rest)

/-- The phases that are not reserved. -/
theorem phase_cases {phase : BitVec 4} (h : phase.toNat < 12) :
    phase = Phase.idle ∨ phase = Phase.check ∨ phase = Phase.pad ∨ phase = Phase.initAcc ∨ phase = Phase.loadBlock ∨
    phase = Phase.expand ∨ phase = Phase.initWs ∨ phase = Phase.round ∨ phase = Phase.fold ∨ phase = Phase.finalize ∨
    phase = Phase.done ∨ phase = Phase.error := by
  revert h
  revert phase
  decide

/-- Runs compose. -/
theorem run_add (a b : Nat) (s : State) :
    core.run (a + b) s =
      match core.run a s with
      | .next u => core.run b u
      | .fault f => .fault f
      | .refused r => .refused r := by
  induction a generalizing s with
  | zero => rw [Nat.zero_add]; rfl
  | succ a ih =>
    rw [Nat.succ_add]
    simp only [Host.Core.run]
    cases core.step s with
    | next u => exact ih u
    | fault f => rfl
    | refused r => rfl

theorem run_trans {a b : Nat} {s u v : State} (h1 : core.run a s = .next u) (h2 : core.run b u = .next v) :
    core.run (a + b) s = .next v := by
  rw [run_add, h1]
  exact h2

end Sys2Proof.Machine
end

