-- ==== Sys2Proof/Tests/Slice0.lean ====
section
/-! SUPPORT. Tests of single steps, their expected results from 95_test_vectors.md and the rules' own examples, and for each
obligation with hypotheses a witness that meets them. -/

namespace Sys2Proof.Tests

open Sys2Proof.Machine

/-! Helpers. -/

/-- A state in the given phase, with the algorithm and the STATUS of a running computation. -/
def running (alg : Alg) (phase : BitVec 4) : State :=
  { State.reset with
    phase := phase
    alg := alg
    status := statusRunning alg }

/-- A state whose host makes the given turns. -/
def hosted (turns : List Turn) : State :=
  { State.reset with host := turns }

/-- A state in ERROR after an exception. -/
def failed (code : BitVec 4) (salg : Alg) (turns : List Turn) : State :=
  { State.reset with
    phase := 0xB
    status := ⟨false, false, true, code, salg⟩
    host := turns }

/-- The result is a next state with the property. -/
def nextHas (r : Result) (property : State → Bool) : Bool :=
  match r with
  | .next s => property s
  | .fault _ => false
  | .refused _ => false

def faultOf (r : Result) : Option Fault :=
  match r with
  | .next _ => none
  | .fault f => some f
  | .refused _ => none

def refusalOf (r : Result) : Option Refusal :=
  match r with
  | .next _ => none
  | .fault _ => none
  | .refused q => some q

/-- The bytes of "abc". -/
def abc : List Byte := [0x61, 0x62, 0x63]

/-- A schedule with the given first words and zero elsewhere. -/
def scheduleOf (words : List Word32) : Vector Word32 80 :=
  setFirstWords (Vector.replicate 80 0) words

/-- Registers all equal to `x`. -/
def regsOf (x : Word32) : Regs := ⟨x, x, x, x, x, x, x, x⟩

/-- A state about to run ROUND `i` with every register and every schedule word `x`. -/
def roundState (alg : Alg) (i : Nat) (x : Word32) : State :=
  { running alg 0x7 with
    i := i
    regs := regsOf x
    w := Vector.replicate 80 x }

/-! WellFormed refuses an operand of another row. -/

theorem test_illformed_illegal : (Instr.illegal 0x00000001).wellFormed = false ∧ (Instr.illegal 0x00000031).wellFormed = false := by
  decide

theorem test_illformed_reservedPhase :
    (Instr.reservedPhase .sha1 0xB).wellFormed = false ∧ (Instr.reservedPhase .sha256 0x0).wellFormed = false := by decide

/-! Decoding: words written out from the layouts of R70 (RSV, INV, ALG, OP) and R75 (zero, ALG, PHASE). -/

theorem test_decode_startSha1 : decode (.cmd 0b00000000000000000000000000_1_0_0001#32) = .ok (.startSha1 true) := by rfl
theorem test_decode_startSha256 : decode (.cmd 0b00000000000000000000000000_0_1_0001#32) = .ok (.startSha256 false) := by rfl
theorem test_decode_illegal :
    decode (.cmd 0b00000000000000000000000001_0_0_0001#32) = .ok (.illegal 0x00000041) ∧
    decode (.cmd 0b00000000000000000000000000_0_0_0010#32) = .ok (.illegal 0x00000002) := ⟨by rfl, by rfl⟩
theorem test_decode_readStatus : decode .statusRead = .ok .readStatus := by rfl
theorem test_decode_idle : decode (.uop 0b000_1_0000#8) = .ok (.idle .sha256) := by rfl
theorem test_decode_check : decode (.uop 0b000_1_0001#8) = .ok (.check .sha256) := by rfl
theorem test_decode_pad : decode (.uop 0b000_0_0010#8) = .ok (.pad .sha1) := by rfl
theorem test_decode_sha1InitAcc : decode (.uop 0b000_0_0011#8) = .ok .sha1InitAcc := by rfl
theorem test_decode_sha256InitAcc : decode (.uop 0b000_1_0011#8) = .ok .sha256InitAcc := by rfl
theorem test_decode_loadBlock : decode (.uop 0b000_1_0100#8) = .ok (.loadBlock .sha256) := by rfl
theorem test_decode_sha1Expand : decode (.uop 0b000_0_0101#8) = .ok .sha1Expand := by rfl
theorem test_decode_sha256Expand : decode (.uop 0b000_1_0101#8) = .ok .sha256Expand := by rfl
theorem test_decode_sha1InitWs : decode (.uop 0b000_0_0110#8) = .ok .sha1InitWs := by rfl
theorem test_decode_sha256InitWs : decode (.uop 0b000_1_0110#8) = .ok .sha256InitWs := by rfl
theorem test_decode_sha1Round : decode (.uop 0b000_0_0111#8) = .ok .sha1Round := by rfl
theorem test_decode_sha256Round : decode (.uop 0b000_1_0111#8) = .ok .sha256Round := by rfl
theorem test_decode_sha1Fold : decode (.uop 0b000_0_1000#8) = .ok .sha1Fold := by rfl
theorem test_decode_sha256Fold : decode (.uop 0b000_1_1000#8) = .ok .sha256Fold := by rfl
theorem test_decode_sha1Finalize : decode (.uop 0b000_0_1001#8) = .ok .sha1Finalize := by rfl
theorem test_decode_sha256Finalize : decode (.uop 0b000_1_1001#8) = .ok .sha256Finalize := by rfl
theorem test_decode_done : decode (.uop 0b000_0_1010#8) = .ok (.done .sha1) := by rfl
theorem test_decode_error : decode (.uop 0b000_1_1011#8) = .ok (.error .sha256) := by rfl
theorem test_decode_reservedPhase : decode (.uop 0b000_0_1111#8) = .ok (.reservedPhase .sha1 0xF) := by rfl
theorem test_decode_rejects : decode (.uop 0b001_0_0001#8) = .error .notAMicroOperation := by rfl

/-! Host commands: V-CMD, R101 to R106. -/

/-- R101's example. -/
theorem test_start_sha1_abc :
    nextHas (step (hosted [.write 0x00000001 abc])) (fun u =>
      u.alg == .sha1 && u.len == 3 && u.msg == abc && statusWord u.status == 0x00000001 && u.phase == 0x1) = true := by decide

/-- R102's example: from DONE, with the empty message. -/
theorem test_start_sha256_empty :
    nextHas (step { hosted [.write 0x00000011 []] with phase := 0xA, status := statusFinished .sha1, len := 7 }) (fun u =>
      u.alg == .sha256 && u.len == 0 && u.msg == [] && statusWord u.status == 0x00000101 && u.phase == 0x1) = true := by decide

/-- R101: with INV = 1 the message operand is ignored. -/
theorem test_start_inv_ignores_message :
    nextHas (step { hosted [.write 0x00000021 abc] with len := 9 }) (fun u =>
      u.inv && u.len == 9 && u.msg == [] && u.phase == 0x1) = true := by decide

/-- R103's example, and V-CMD-11: SALG is kept. -/
theorem test_illegal_status :
    nextHas (step (hosted [.write 0x00000002 []])) (fun u =>
      statusWord u.status == 0x00000034 && u.phase == 0xB && u.out == []) = true ∧
    nextHas (step { hosted [.write 0x00000002 []] with phase := 0xA, status := statusFinished .sha256 }) (fun u =>
      statusWord u.status == 0x00000134 && u.phase == 0xB) = true := by decide

/-- V-EXC-5: an illegal command in ERROR replaces ERRCODE. -/
theorem test_illegal_in_error :
    nextHas (step (failed 1 .sha256 [.write 0x00000002 []])) (fun u => statusWord u.status == 0x00000134) = true := by decide

/-- R104's example: DONE of SHA1 reads 0x00000002; a running SHA256 computation reads 0x00000101. -/
theorem test_read_status :
    nextHas (step { hosted [.read] with phase := 0xA, status := statusFinished .sha1 }) (fun u =>
      u.statusReads == [0x00000002] && u.phase == 0xA) = true ∧
    nextHas (step { running .sha256 0x5 with host := [.read] }) (fun u =>
      u.statusReads == [0x00000101] && u.t == 16 && u.phase == 0x5) = true := by decide

/-- R84: `wait` reads once and lets the engine move while BUSY = 1. -/
theorem test_wait_while_busy :
    nextHas (step { running .sha1 0x1 with host := [.wait, .read] }) (fun u =>
      u.statusReads == [0x00000001] && u.host == [.engine, .wait, .read]) = true := by decide

/-- R105, V-EXC-8. -/
theorem test_command_while_busy :
    refusalOf (step { running .sha1 0x9 with host := [.write 0x00000041 []] }) = some .commandWhileBusy := by decide

/-- R106, at the edge of a capacity of three bytes. -/
theorem test_capacity :
    refusalOf (step { hosted [.write 0x00000001 [0, 1, 2, 3]] with msgCapacity := 3 }) = some .messageOverCapacity ∧
    nextHas (step { hosted [.write 0x00000001 [0, 1, 2]] with msgCapacity := 3 }) (fun u => u.len == 3) = true := by decide

/-- R270: a reset in ROUND keeps OUT and returns to IDLE, even from a reserved phase. -/
theorem test_reset_turn :
    nextHas (step { roundState .sha1 3 7 with host := [.reset, .read], out := [.digest ['0']] }) (fun u =>
      u.phase == 0x0 && statusWord u.status == 0 && u.out == [.digest ['0']] && u.host == [.read]) = true ∧
    nextHas (step { hosted [.reset] with phase := 0xD }) (fun u => u.phase == 0x0) = true := by decide

/-! The padder. -/

/-- R120's example (V-EXC-2), and CHECK without INV. -/
theorem test_check :
    nextHas (exec (.check .sha256) { running .sha256 0x1 with inv := true }) (fun u =>
      statusWord u.status == 0x00000114 && u.phase == 0xB && u.out == []) = true ∧
    nextHas (exec (.check .sha1) (running .sha1 0x1)) (fun u => u.phase == 0x2 && u.status == statusRunning .sha1) = true := by decide

/-- R121's example, V-PAD-2: the bytes about "abc", the first and the last of the length field. -/
theorem test_pad_abc :
    nextHas (exec (.pad .sha1) { running .sha1 0x2 with msg := abc, len := 3 }) (fun u =>
      u.p.read 2 == some 0x63 && u.p.read 3 == some 0x80 && u.p.read 4 == some 0x00 && u.p.read 55 == some 0x00 &&
      u.p.read 62 == some 0x00 && u.p.read 63 == some 0x18 && u.p.read 64 == none && u.n == 1 && u.phase == 0x3) = true := by
  rfl

/-- V-PAD-4, in numbers: 55 bytes need one block, 56 two (V-SRC-2), and k is as V-SRC-1 has it. -/
theorem test_pad_counts :
    [0, 3, 55, 56, 63, 64, 119, 120, 256].map zeroCount = [55, 52, 0, 63, 56, 55, 0, 63, 55] ∧
    [0, 3, 55, 56, 63, 64, 119, 120, 256].map blockCount = [1, 1, 1, 2, 2, 2, 2, 3, 5] := by decide

/-- V-PAD-6 and V-PAD-7: no fault at 2^61 - 1, the block count and the length field; LengthOverflow at 2^61. -/
theorem test_pad_limit :
    blockCount (2 ^ 61 - 1) = 2 ^ 55 + 1 ∧ be64bytes (BitVec.ofNat 64 (8 * (2 ^ 61 - 1))) = [255, 255, 255, 255, 255, 255, 255, 248] ∧
    nextHas (exec (.pad .sha256) { running .sha256 0x2 with len := 2 ^ 61 }) (fun u =>
      statusWord u.status == 0x00000124 && u.phase == 0xB && u.p == []) = true := by decide

/-- R16: no byte of MSG beyond its end is read. -/
theorem test_pad_short_message :
    faultOf (exec (.pad .sha1) { running .sha1 0x2 with msg := abc, len := 4 }) = some .messageReadOutOfRange := by decide

/-! The schedule. -/

/-- R140, the second block of a buffer whose byte `a` is `a` mod 256: the words' bytes in order, entries from 16 kept. -/
theorem test_loadBlock :
    nextHas (exec (.loadBlock .sha1) { running .sha1 0x4 with
      p := (List.range 128).map fun a => (a, BitVec.ofNat 8 a)
      blk := 1
      w := Vector.replicate 80 0x55555555 }) (fun u =>
        u.w[0] == 0x40414243 && u.w[15] == 0x7C7D7E7F && u.w[16] == 0x55555555 && u.w[79] == 0x55555555 && u.t == 16 &&
        u.phase == 0x5) = true := by rfl

/-- U6: nothing has written P. -/
theorem test_loadBlock_unwritten : faultOf (exec (.loadBlock .sha1) (running .sha1 0x4)) = some .paddedReadOutOfRange := by decide

/-- V-SCH-1: W[16] of "abc" (R141's example). -/
theorem test_sha1Expand_abc :
    nextHas (exec .sha1Expand { running .sha1 0x5 with w := scheduleOf ([0x61626380] ++ List.replicate 14 0 ++ [0x18]) }) (fun u =>
      u.w[16] == 0xC2C4C700 && u.w[17] == 0 && u.t == 17 && u.phase == 0x5) = true := by rfl

/-- V-SCH-5: a block of all ones, at T = 19; and the last word leads to INIT_WS. -/
theorem test_sha1Expand_ones :
    nextHas (exec .sha1Expand { running .sha1 0x5 with t := 19, w := scheduleOf (List.replicate 16 0xFFFFFFFF) }) (fun u =>
      u.w[19] == 0xFFFFFFFF) = true ∧
    nextHas (exec .sha1Expand { running .sha1 0x5 with t := 79 }) (fun u => u.t == 80 && u.phase == 0x6) = true := ⟨by rfl, by rfl⟩

/-- V-SCH-2: W[17] of "abc" (R143's example). -/
theorem test_sha256Expand_abc :
    nextHas (exec .sha256Expand { running .sha256 0x5 with
      t := 17
      w := scheduleOf ([0x61626380] ++ List.replicate 14 0 ++ [0x18, 0x61626380]) }) (fun u =>
        u.w[17] == 0x000F0000 && u.w[16] == 0x61626380 && u.t == 18 && u.phase == 0x5) = true := by rfl

/-- V-SCH-6: a block of all ones wraps; and the last word leads to INIT_WS. -/
theorem test_sha256Expand_ones :
    nextHas (exec .sha256Expand { running .sha256 0x5 with w := scheduleOf (List.replicate 16 0xFFFFFFFF) }) (fun u =>
      u.w[16] == 0x203FFFFC) = true ∧
    nextHas (exec .sha256Expand { running .sha256 0x5 with t := 63 }) (fun u => u.t == 64 && u.phase == 0x6) = true := ⟨by rfl, by rfl⟩

/-- No index outside the range of R141 and R143 is used. -/
theorem test_expand_range :
    faultOf (exec .sha1Expand { running .sha1 0x5 with t := 80 }) = some .scheduleIndexOutOfRange ∧
    faultOf (exec .sha256Expand { running .sha256 0x5 with t := 64 }) = some .scheduleIndexOutOfRange ∧
    faultOf (exec .sha1Expand { running .sha1 0x5 with t := 15 }) = some .scheduleIndexOutOfRange := by decide

/-- V-PRIM-1, 3, 5, 7, 8, 10. -/
theorem test_word_operators :
    rotl 0x80000001 1 = 0x00000003 ∧ rotl 0x12345678 5 = 0x468ACF02 ∧ rotr 0x00000001 7 = 0x02000000 ∧
    rotr 0x12345678 6 = 0xE048D159 ∧ rotr 0x80000000 25 = 0x00000040 ∧ shr 0x80000000 10 = 0x00200000 := by decide

/-- V-PRIM-13 and V-PRIM-14. -/
theorem test_sigma :
    smallSigma0 0x12345678 = 0xE7FCE6EE ∧ smallSigma1 0x12345678 = 0xA1F78649 ∧ bigSigma0 0x12345678 = 0x66146474 ∧
    bigSigma1 0x12345678 = 0x3561ABDA ∧ smallSigma0 0xFFFFFFFF = 0x1FFFFFFF ∧ smallSigma1 0xFFFFFFFF = 0x003FFFFF := by decide

/-- V-PRIM-15, for both algorithms. -/
theorem test_round_functions :
    f1 19 0xFFFF0000 0x12345678 0x9ABCDEF0 = 0x1234DEF0 ∧ f1 39 0xFFFF0000 0x12345678 0x9ABCDEF0 = 0x77778888 ∧
    f1 59 0xFFFF0000 0x12345678 0x9ABCDEF0 = 0x9ABC5670 ∧ f1 79 0xFFFF0000 0x12345678 0x9ABCDEF0 = 0x77778888 ∧
    ch 0xFFFF0000 0x12345678 0x9ABCDEF0 = 0x1234DEF0 ∧ maj 0xFFFF0000 0x12345678 0x9ABCDEF0 = 0x9ABC5670 := by decide

/-! SHA-1. -/

/-- R160's example; ACC[5] is not written. -/
theorem test_sha1InitAcc :
    nextHas (exec .sha1InitAcc { running .sha1 0x3 with blk := 4, acc := Vector.replicate 8 9 }) (fun u =>
      u.acc == #v[0x67452301, 0xEFCDAB89, 0x98BADCFE, 0x10325476, 0xC3D2E1F0, 9, 9, 9] && u.blk == 0 && u.phase == 0x4) = true := by
  rfl

/-- R161: the order of the registers; F is not written. -/
theorem test_sha1InitWs :
    nextHas (exec .sha1InitWs { running .sha1 0x6 with acc := #v[1, 2, 3, 4, 5, 6, 7, 8], regs := regsOf 9, i := 80 }) (fun u =>
      u.regs == ⟨1, 2, 3, 4, 5, 9, 9, 9⟩ && u.i == 0 && u.phase == 0x7) = true := by rfl

/-- R162's example, V-R1-1 row 1. -/
theorem test_sha1Round_abc :
    nextHas (exec .sha1Round { running .sha1 0x7 with
      regs := ⟨0x67452301, 0xEFCDAB89, 0x98BADCFE, 0x10325476, 0xC3D2E1F0, 0, 0, 0⟩
      w := scheduleOf [0x61626380] }) (fun u =>
        u.out == [.round 1 [0x0116FC33, 0x67452301, 0x7BF36AE2, 0x98BADCFE, 0x10325476]] && u.i == 1 && u.phase == 0x7) = true := by
  rfl

/-- V-R1-4: all ones at I = 79, the last round; and a sink that does not accept holds the engine. -/
theorem test_sha1Round_last :
    nextHas (exec .sha1Round (roundState .sha1 79 0xFFFFFFFF)) (fun u =>
      u.regs.a == 0xCA62C1D2 && u.regs.e == 0xFFFFFFFF && u.i == 80 && u.phase == 0x8) = true ∧
    nextHas (exec .sha1Round { roundState .sha1 79 0xFFFFFFFF with sink := ⟨[false, true], true⟩ }) (fun u =>
      u.out == [] && u.regs == regsOf 0xFFFFFFFF && u.i == 79 && u.phase == 0x7 && u.sink == ⟨[true], true⟩) = true := ⟨by rfl, by rfl⟩

/-- R163 with V-R1-5: the sums wrap without a carry; the last block leads to FINALIZE, another to LOAD_BLOCK. -/
theorem test_sha1Fold :
    nextHas (exec .sha1Fold { running .sha1 0x8 with
      acc := #v[0, 0xFFFFFFFF, 5, 6, 7, 8, 9, 10]
      regs := ⟨1, 1, 1, 1, 1, 1, 1, 1⟩
      n := 2 }) (fun u => u.acc == #v[1, 0, 6, 7, 8, 8, 9, 10] && u.blk == 1 && u.phase == 0x4) = true ∧
    nextHas (exec .sha1Fold { running .sha1 0x8 with blk := 1, n := 2 }) (fun u => u.blk == 2 && u.phase == 0x9) = true :=
  ⟨by rfl, by rfl⟩

/-! SHA-256. -/

/-- R190's example. -/
theorem test_sha256InitAcc :
    nextHas (exec .sha256InitAcc (running .sha256 0x3)) (fun u =>
      u.acc == #v[0x6A09E667, 0xBB67AE85, 0x3C6EF372, 0xA54FF53A, 0x510E527F, 0x9B05688C, 0x1F83D9AB, 0x5BE0CD19] &&
      u.phase == 0x4) = true := by rfl

/-- R191: the order of the registers. -/
theorem test_sha256InitWs :
    nextHas (exec .sha256InitWs { running .sha256 0x6 with acc := #v[1, 2, 3, 4, 5, 6, 7, 8] }) (fun u =>
      u.regs == ⟨1, 2, 3, 4, 5, 6, 7, 8⟩ && u.i == 0 && u.phase == 0x7) = true := by rfl

/-- V-R2-4 row 4 and V-NEG-1: from IV2 with W[0] = 0 the new E is 98c7e2a2, not a1587d87. -/
theorem test_sha256Round_iv2 :
    nextHas (exec .sha256Round { running .sha256 0x7 with
      regs := ⟨0x6A09E667, 0xBB67AE85, 0x3C6EF372, 0xA54FF53A, 0x510E527F, 0x9B05688C, 0x1F83D9AB, 0x5BE0CD19⟩ }) (fun u =>
        u.out == [.round 1 [0xFC08884D, 0x6A09E667, 0xBB67AE85, 0x3C6EF372, 0x98C7E2A2, 0x510E527F, 0x9B05688C, 0x1F83D9AB]] &&
        u.i == 1) = true := by rfl

/-- V-R2-4: all ones at I = 63, the last round; and a sink that does not accept holds the engine. -/
theorem test_sha256Round_last :
    nextHas (exec .sha256Round (roundState .sha256 63 0xFFFFFFFF)) (fun u =>
      u.regs.a == 0xC67178EC && u.regs.e == 0xC67178ED && u.regs.h == 0xFFFFFFFF && u.i == 64 && u.phase == 0x8) = true ∧
    nextHas (exec .sha256Round { roundState .sha256 5 1 with sink := ⟨[], false⟩ }) (fun u =>
      u.out == [] && u.regs == regsOf 1 && u.i == 5 && u.phase == 0x7) = true := ⟨by rfl, by rfl⟩

/-- V-R2-2: IV2 and round 64 of "abc". -/
theorem test_sha256Fold_abc :
    nextHas (exec .sha256Fold { running .sha256 0x8 with
      acc := #v[0x6A09E667, 0xBB67AE85, 0x3C6EF372, 0xA54FF53A, 0x510E527F, 0x9B05688C, 0x1F83D9AB, 0x5BE0CD19]
      regs := ⟨0x506E3058, 0xD39A2165, 0x04D24D6C, 0xB85E2CE9, 0x5EF50F24, 0xFB121210, 0x948D25B6, 0x961F4894⟩ }) (fun u =>
        u.acc == #v[0xBA7816BF, 0x8F01CFEA, 0x414140DE, 0x5DAE2223, 0xB00361A3, 0x96177A9C, 0xB410FF61, 0xF20015AD] &&
        u.phase == 0x9) = true := by rfl

/-- No index beyond the range of R162 and R192 is used. -/
theorem test_round_range :
    faultOf (exec .sha1Round (roundState .sha1 80 0)) = some .roundIndexOutOfRange ∧
    faultOf (exec .sha256Round (roundState .sha256 64 0)) = some .roundIndexOutOfRange := by decide

/-! The finalizer. -/

/-- V-KAT-2 from the accumulator of R163's example. -/
theorem test_sha1Finalize_abc :
    nextHas (exec .sha1Finalize { running .sha1 0x9 with
      acc := #v[0xA9993E36, 0x4706816A, 0xBA3E2571, 0x7850C26C, 0x9CD0D89D, 1, 1, 1] }) (fun u =>
        u.out == [.digest "a9993e364706816aba3e25717850c26c9cd0d89d".toList] && statusWord u.status == 0x00000002 &&
        u.phase == 0xA) = true := by rfl

/-- R220: a sink that does not accept the Digest holds the engine with BUSY = 1. -/
theorem test_sha1Finalize_held :
    nextHas (exec .sha1Finalize { running .sha1 0x9 with sink := ⟨[false], true⟩ }) (fun u =>
      u.out == [] && u.status.busy && u.phase == 0x9) = true := by rfl

/-- V-KAT-4 from the accumulator of V-R2-2. -/
theorem test_sha256Finalize_abc :
    nextHas (exec .sha256Finalize { running .sha256 0x9 with
      acc := #v[0xBA7816BF, 0x8F01CFEA, 0x414140DE, 0x5DAE2223, 0xB00361A3, 0x96177A9C, 0xB410FF61, 0xF20015AD] }) (fun u =>
        u.out == [.digest "ba7816bf8f01cfea414140de5dae2223b00361a396177a9cb410ff61f20015ad".toList] &&
        statusWord u.status == 0x00000102 && u.phase == 0xA) = true := by rfl

/-- V-FIN-1 to V-FIN-4 and V-D-64a. -/
theorem test_hex8 :
    hex8 0x00000000 = "00000000".toList ∧ hex8 0xA9993E36 = "a9993e36".toList ∧ hex8 0x0098BA82 = "0098ba82".toList ∧
    asciiBytes (hex8 0xDA390000) = [0x64, 0x61, 0x33, 0x39, 0x30, 0x30, 0x30, 0x30] := ⟨by rfl, by rfl, by rfl, by rfl⟩

/-- The phases without an engine step (R223, R224, R251). -/
theorem test_no_step_phases :
    nextHas (step (hosted [])) (fun u => u == hosted []) = true ∧
    nextHas (step { hosted [.engine] with phase := 0xA }) (fun u => u.phase == 0xA && u.host == []) = true ∧
    nextHas (step (failed 2 .sha256 [])) (fun u => statusWord u.status == 0x00000124 && u.phase == 0xB) = true := by decide

/-- R76 and U11. -/
theorem test_reserved_codes :
    faultOf (step { hosted [] with phase := 0xC }) = some .reservedPhase ∧
    faultOf (step { hosted [.read] with phase := 0xF }) = some .reservedPhase ∧
    faultOf (step (failed 4 .sha1 [])) = some .reservedErrcode := by decide

/-- The table's numbering, and an instruction placed for the next step. -/
theorem test_withFetchWord :
    decodeTableWord 32 0x00000031 = some (.startSha256 true) ∧ decodeTableWord 8 0x15 = some .sha256Expand ∧
    decodeTableWord 0 0 = some .readStatus ∧ decodeTableWord 8 0x81 = none ∧
    nextHas (step (State.reset.withFetchWord 8 0x13)) (fun u => u.acc[0] == 0x6A09E667 && u.phase == 0x4) = true ∧
    nextHas (step (State.reset.withFetchWord 32 0x11)) (fun u => u.alg == .sha256 && u.phase == 0x1) = true :=
  ⟨by rfl, by rfl, by rfl, by rfl, by rfl, by rfl⟩

/-! Witnesses: for each obligation with hypotheses, in their order, data that meets them together, clause by clause at the ends of
its ranges. -/

/-- A message of a given length. -/
theorem exists_message (len : Nat) : ∃ msg : List Byte, msg.length = len := ⟨List.replicate len 0, List.length_replicate⟩

/-- A state about to hash "abc". -/
def abcState (alg : Alg) (phase : BitVec 4) : State :=
  { running alg phase with
    msg := abc
    len := 3
    n := 1 }

/-- Before PAD the state of an ordinary message meets the invariant. -/
theorem abcState_inv (alg : Alg) (turns : List Turn) : Inv { abcState alg 0x1 with host := turns } where
  buffer_canonical := List.Pairwise.nil
  phase_legal := (by decide : (0x1#4).toNat < 12)
  busy_iff := rfl
  done_iff := rfl
  err_iff := rfl
  errcode_range := rfl
  salg_eq _ := rfl
  capacity_range := Nat.le_refl _
  message_bound _ := rfl
  buffer_padded h := absurd h.1 (by decide : ¬ 3 ≤ (0x1#4).toNat)
  block_range h := absurd h.1 (by decide : ¬ 4 ≤ (0x1#4).toNat)
  schedule_range h := absurd h (by decide : (0x1#4) ≠ Phase.expand)
  round_range h := absurd h (by decide : (0x1#4) ≠ Phase.round)

theorem witness_CommandWordsDecode :
    ((0x00000021#32).extractLsb' 0 4 = 0x1#4 ∧ (0x00000021#32).extractLsb' 6 26 = 0#26 ∧ (0x00000021#32).getLsbD 4 = false) ∧
    ((0x00000031#32).extractLsb' 0 4 = 0x1#4 ∧ (0x00000031#32).extractLsb' 6 26 = 0#26 ∧ (0x00000031#32).getLsbD 4 = true) ∧
    (0x00000000#32).extractLsb' 0 4 ≠ 0x1#4 ∧ (0x80000001#32).extractLsb' 6 26 ≠ 0#26 := by decide

theorem witness_MicroOperationWords :
    12 ≤ (0xC#4).toNat ∧ 12 ≤ (0xF#4).toNat ∧ (hosted []).host = [] ∧ ∃ rest, (hosted [.engine, .read]).host = .engine :: rest :=
  ⟨by decide, by decide, rfl, _, rfl⟩

theorem witness_DecodeOfEncode :
    (Instr.illegal 0x00000000).wellFormed = true ∧ (Instr.illegal 0xFFFFFFFF).wellFormed = true ∧
    (Instr.reservedPhase .sha256 0xC).wellFormed = true ∧ (Instr.startSha1 true).wellFormed = true ∧
    Instr.sha256Fold.wellFormed = true := by decide

theorem witness_EncodeOfDecode :
    decode (.cmd 0x00000031) = .ok (.startSha256 true) ∧ decode (.uop 0x1F) = .ok (.reservedPhase .sha256 0xF) ∧
    decode .statusRead = .ok .readStatus := ⟨by rfl, by rfl, by rfl⟩

theorem witness_StepRunsDecodedInstruction :
    (running .sha256 0xB).phase.toNat < 12 ∧ (failed 3 .sha1 []).status.errcode.toNat < 4 ∧
    (hosted []).host = [] ∧ decode (.uop (uopWord .sha256 0xB)) = .ok (.error .sha256) ∧
    (∃ rest, (hosted [.engine]).host = .engine :: rest) ∧ (∃ rest, (hosted [.write 0x1 abc]).host = .write 0x1 abc :: rest) ∧
    decode (.cmd 0x1) = .ok (.startSha1 false) ∧ (∃ rest, (hosted [.read]).host = .read :: rest) ∧
    (∃ rest, (hosted [.wait]).host = .wait :: rest ∧ (hosted [.wait]).status.busy = false) ∧
    ∃ rest, { running .sha1 0x5 with host := [.wait] }.host = .wait :: rest ∧ (running .sha1 0x5).status.busy = true :=
  ⟨by decide, by decide, rfl, by rfl, ⟨_, rfl⟩, ⟨_, rfl⟩, by rfl, ⟨_, rfl⟩, ⟨_, rfl, rfl⟩, _, rfl, rfl⟩

theorem witness_ReservedPhaseFaults :
    12 ≤ (running .sha1 0xC).phase.toNat ∧ 12 ≤ (running .sha1 0xF).phase.toNat ∧
    (∀ rest, (running .sha1 0xF).host ≠ .reset :: rest) ∧ (running .sha1 0xB).phase.toNat < 12 ∧
    ∃ u, exec (.error .sha1) (running .sha1 0xB) = .next u :=
  ⟨by decide, by decide, by simp [running, State.reset], by decide, _, rfl⟩

theorem witness_ReservedErrorCodeFaults :
    (failed 4 .sha1 []).phase.toNat < 12 ∧ 4 ≤ (failed 4 .sha1 []).status.errcode.toNat ∧
    4 ≤ (failed 15 .sha1 []).status.errcode.toNat ∧ (∀ rest, (failed 4 .sha1 []).host ≠ .reset :: rest) ∧
    (failed 3 .sha1 []).status.errcode.toNat < 4 ∧ ∃ u, exec (.illegal 0) (failed 3 .sha1 []) = .next u :=
  ⟨by decide, by decide, by decide, by simp [failed], by decide, _, rfl⟩

theorem witness_StartSha1Begins :
    0x00000021#32 &&& 0xFFFFFFDF#32 = 0x00000001#32 ∧
    (running .sha1 0xA).phase = 0xA ∧ (running .sha1 0xB).phase = 0xB ∧ (hosted []).phase = 0x0 ∧
    { hosted [] with msgIn := abc, msgCapacity := 3 }.msgIn.length ≤ 3 ∧
    ∃ msg, 2 ^ 61 ≤ { hosted [] with msgIn := msg }.msgIn.length :=
  ⟨by decide, rfl, rfl, rfl, by decide, (exists_message (2 ^ 61)).imp fun _ h => Nat.le_of_eq h.symm⟩

theorem witness_StartSha256Begins :
    0x00000031#32 &&& 0xFFFFFFDF#32 = 0x00000011#32 ∧ (running .sha256 0xA).phase = 0xA ∧
    { running .sha256 0xA with msgIn := abc, msgCapacity := 3 }.msgIn.length ≤ 3 ∧
    ∃ msg, 2 ^ 61 ≤ { running .sha256 0xA with msgIn := msg }.msgIn.length :=
  ⟨by decide, rfl, by decide, (exists_message (2 ^ 61)).imp fun _ h => Nat.le_of_eq h.symm⟩

theorem witness_IllegalCommandRaises :
    (0x00000000#32).extractLsb' 0 4 ≠ 0x1#4 ∧ (0x00000041#32).extractLsb' 6 26 ≠ 0#26 ∧ (hosted []).phase = 0x0 ∧
    (running .sha1 0xA).phase = 0xA ∧ (running .sha1 0xB).phase = 0xB := by decide

theorem witness_BusyCommandRefused :
    (1 ≤ (running .sha1 0x1).phase.toNat ∧ (running .sha1 0x1).phase.toNat ≤ 9) ∧
    1 ≤ (running .sha1 0x9).phase.toNat ∧ (running .sha1 0x9).phase.toNat ≤ 9 := by decide

theorem witness_CapacityRefused :
    (∃ s : State, s.phase = 0x0 ∧ s.msgCapacity < s.msgIn.length ∧ s.msgIn.length ≤ 2 ^ 61 - 1) ∧
    (∃ s : State, s.phase = 0xB ∧ s.msgCapacity < s.msgIn.length ∧ s.msgIn.length = 2 ^ 61 - 1) ∧
    ∃ s : State, s.phase = 0xA ∧ 2 ^ 61 ≤ s.msgIn.length := by
  obtain ⟨top, htop⟩ := exists_message (2 ^ 61 - 1)
  obtain ⟨long, hlong⟩ := exists_message (2 ^ 61)
  exact ⟨⟨{ hosted [] with msgIn := abc, msgCapacity := 2 }, rfl, by decide, by decide⟩,
    ⟨{ running .sha1 0xB with msgIn := top, msgCapacity := 2 }, rfl, htop ▸ (by decide : 2 < 2 ^ 61 - 1), htop⟩,
    ⟨{ running .sha1 0xA with msgIn := long }, rfl, Nat.le_of_eq hlong.symm⟩⟩

theorem witness_CheckTurnsInvIntoException :
    (running .sha1 0x1).inv = false ∧ { running .sha256 0x1 with inv := true }.inv = true := by decide

/-- Lengths 3, 2^61 - 1 and 2^61. -/
theorem witness_PadBuildsBuffer :
    ((52 : Nat) : Int) = (55 - ((abcState .sha1 0x2).len : Int)) % 64 ∧ (abcState .sha1 0x2).len = (abcState .sha1 0x2).msg.length ∧
    (∃ s : State, ((56 : Nat) : Int) = (55 - (s.len : Int)) % 64 ∧ s.len = s.msg.length ∧ s.len < 2 ^ 61 ∧ 2 ^ 61 - 1 ≤ s.len) ∧
    ((55 : Nat) : Int) = (55 - (({ running .sha1 0x2 with len := 2 ^ 61 }.len : Nat) : Int)) % 64 := by
  obtain ⟨top, htop⟩ := exists_message (2 ^ 61 - 1)
  exact ⟨by decide, rfl, ⟨{ running .sha1 0x2 with msg := top, len := 2 ^ 61 - 1 }, by rfl, htop.symm, by simp, Nat.le_refl _⟩,
    by decide⟩

theorem witness_PaddedBufferInvariants :
    (abcState .sha1 0x2).len = (abcState .sha1 0x2).msg.length ∧ (abcState .sha1 0x2).len < 2 ^ 61 ∧
    (∃ u, exec (.pad .sha1) (abcState .sha1 0x2) = .next u) ∧ ∃ u, exec (.pad .sha256) (running .sha256 0x2) = .next u :=
  ⟨rfl, by decide, ⟨_, rfl⟩, _, rfl⟩

theorem witness_PadDependsOnMessageOnly :
    ∃ s t : State, s ≠ t ∧ s.msg = t.msg ∧ s.len = t.len ∧ s.len = s.msg.length ∧ s.len < 2 ^ 61 :=
  ⟨abcState .sha1 0x2, abcState .sha256 0x2, by decide, rfl, rfl, rfl, by decide⟩

theorem witness_LoadBlockLoadsWords :
    ∃ (s : State) (byte : Nat → Byte), s.blk = 1 ∧ ∀ k, k < 64 → s.p.read (64 * s.blk + k) = some (byte k) :=
  ⟨{ abcState .sha1 0x4 with blk := 1, p := (List.range 128).map fun a => (a, BitVec.ofNat 8 a) }, fun k => BitVec.ofNat 8 (64 + k),
    rfl, by decide⟩

theorem witness_Sha1ExpandWritesWord :
    (16 ≤ (running .sha1 0x5).t ∧ (running .sha1 0x5).t < 80) ∧
    16 ≤ { running .sha1 0x5 with t := 79 }.t ∧ { running .sha1 0x5 with t := 79 }.t < 80 := by decide

theorem witness_Sha256ExpandWritesWord :
    (16 ≤ (running .sha256 0x5).t ∧ (running .sha256 0x5).t < 64) ∧
    16 ≤ { running .sha256 0x5 with t := 63 }.t ∧ { running .sha256 0x5 with t := 63 }.t < 64 := by decide

/-- WordOperators, ScheduleFunctionsBitwise, Sha256RoundFunctions, HexDigitsOfWord, BigEndianBytes: the ends of the bounds. -/
theorem witness_amounts : (0 ≤ 31 ∧ 1 ≤ 1 ∧ 1 ≤ 31 ∧ 31 ≤ 31) ∧ (0 < 32 ∧ 31 < 32) ∧ 7 < 8 := by decide

theorem witness_Sha1RoundStep :
    (roundState .sha1 0 1).i < 80 ∧ (roundState .sha1 79 1).i < 80 ∧ (roundState .sha1 79 1).sink.accepts = true ∧
    { roundState .sha1 79 1 with sink := ⟨[false], true⟩ }.sink.accepts = false ∧ ∃ temp : Word32, temp =
      rotl (roundState .sha1 79 1).regs.a 5 + f1 79 1 1 1 + (roundState .sha1 79 1).regs.e + k1 79 + 1 :=
  ⟨by decide, by decide, rfl, rfl, _, rfl⟩

theorem witness_Sha1RoundTables :
    (0 < 20 ∧ 19 < 20) ∧ (20 ≤ 20 ∧ 39 < 40) ∧ (40 ≤ 40 ∧ 59 < 60) ∧ 60 ≤ 60 ∧ 79 < 80 := by decide

theorem witness_Sha256RoundStep :
    (roundState .sha256 0 1).i < 64 ∧ (roundState .sha256 63 1).i < 64 ∧ (roundState .sha256 63 1).sink.accepts = true ∧
    { roundState .sha256 63 1 with sink := ⟨[], false⟩ }.sink.accepts = false ∧
    ∃ temp1 temp2 : Word32, temp1 = 1 + bigSigma1 1 + ch 1 1 1 + k256 63 (by decide) + 1 ∧ temp2 = bigSigma0 1 + maj 1 1 1 :=
  ⟨by decide, by decide, rfl, rfl, _, _, rfl, rfl⟩

/-- Sha1FinalizeEmitsDigest and Sha256FinalizeEmitsDigest. -/
theorem witness_FinalizeEmitsDigest :
    (running .sha1 0x9).sink.accepts = true ∧ { running .sha1 0x9 with sink := ⟨[false], true⟩ }.sink.accepts = false := by decide

theorem witness_NoWakeUpButCommandOrReset :
    (running .sha1 0xA).phase = 0xA ∧ (∀ c msg rest, { running .sha1 0xA with host := [.wait] }.host ≠ .write c msg :: rest) ∧
    (∀ rest, { running .sha1 0xA with host := [.wait] }.host ≠ .reset :: rest) ∧
    (∃ u, step { running .sha1 0xA with host := [.wait] } = .next u) ∧ ∃ u, step (failed 2 .sha1 []) = .next u :=
  ⟨rfl, by simp, by simp, ⟨_, rfl⟩, _, rfl⟩

theorem witness_ErrorEntry :
    { running .sha256 0x1 with inv := true }.inv = true ∧ 2 ^ 61 ≤ { running .sha1 0x2 with len := 2 ^ 61 }.len ∧
    (hosted []).phase = 0x0 ∧ (failed 1 .sha1 []).phase = 0xB := by decide

/-- Each clause: an illegal command (the largest word, and one from each side of the mask), a legal one, a reset, and a read. -/
theorem witness_ErrorsDoNotNest :
    (failed 1 .sha256 []).phase = 0xB ∧ (failed 1 .sha256 []).status.err = true ∧ (failed 3 .sha256 []).status.errcode.toNat < 4 ∧
    (∃ rest, (failed 3 .sha256 [.write 0xFFFFFFFF []]).host = .write 0xFFFFFFFF [] :: rest) ∧
    (∀ c ∈ [0x00000000#32, 0x00000010#32, 0x00000041#32, 0xFFFFFFFF#32],
      c &&& 0xFFFFFFDF#32 ≠ 0x00000001#32 ∧ c &&& 0xFFFFFFDF#32 ≠ 0x00000011#32) ∧
    0x00000031#32 &&& 0xFFFFFFDF#32 = 0x00000011#32 ∧ (∃ u, step (failed 1 .sha256 [.write 0x31 []]) = .next u) ∧
    (∃ rest, (failed 1 .sha256 [.reset]).host = .reset :: rest) ∧
    (∀ c msg rest, (failed 1 .sha256 [.read]).host ≠ .write c msg :: rest) ∧ ∀ rest, (failed 1 .sha256 [.read]).host ≠ .reset :: rest :=
  ⟨rfl, rfl, by decide, ⟨_, rfl⟩, by simp, by decide, ⟨_, rfl⟩, ⟨_, rfl⟩, by simp [failed], by simp [failed]⟩

theorem witness_InvalidInputComesFirst :
    (∃ s : State, s.phase = 0x0 ∧ s.status.errcode.toNat < 4 ∧ s.host = [.write 0x00000021 abc]) ∧
    ∃ (s : State) (msg : List Byte), s.phase = 0xB ∧ s.status.errcode.toNat < 4 ∧ s.host = [.write 0x00000031 msg] ∧
      2 ^ 61 ≤ msg.length :=
  ⟨⟨hosted [.write 0x00000021 abc], rfl, by decide, rfl⟩,
    (exists_message (2 ^ 61)).elim fun msg h =>
      ⟨failed 3 .sha1 [.write 0x00000031 msg], msg, rfl, (by decide : (3#4).toNat < 4), rfl, Nat.le_of_eq h.symm⟩⟩

theorem witness_SinkDecidesWhenEventLeaves :
    (∃ s : State, s.phase = 0x7 ∧ s.i < roundCount s.alg ∧ s.i = 63 ∧ s.status.errcode.toNat < 4 ∧ s.host = [] ∧ s.sink = ⟨[], false⟩) ∧
    ∃ s : State, s.phase = 0x9 ∧ s.status.errcode.toNat < 4 ∧ s.host = [] ∧
      s.sink.answers = List.replicate 2 false ++ true :: [] :=
  ⟨⟨{ roundState .sha256 63 1 with sink := ⟨[], false⟩ }, rfl, by decide, rfl, by decide, rfl, rfl⟩,
    ⟨{ running .sha1 0x9 with sink := ⟨[false, false, true], true⟩ }, rfl, by decide, rfl, rfl⟩⟩

/-- A step that emits nothing, a Round and a Digest. -/
theorem witness_OutputGrowsByEmissionOnly :
    (∃ u, step (hosted []) = .next u) ∧ (∃ u, step (roundState .sha1 79 1) = .next u) ∧ ∃ u, step (running .sha256 0x9) = .next u :=
  ⟨⟨_, rfl⟩, ⟨_, rfl⟩, _, rfl⟩

theorem witness_ResultReportedWithDigest :
    (∃ u, step (running .sha1 0x9) = .next u ∧ (running .sha1 0x9).status.done = false ∧ u.status.done = true) ∧
    ∃ u, step { running .sha1 0x1 with inv := true } = .next u ∧ (running .sha1 0x1).status.err = false ∧ u.status.err = true :=
  ⟨⟨_, rfl, rfl, rfl⟩, _, rfl, rfl, rfl⟩

/-- MessageRegistersFrame and BufferFrame. -/
theorem witness_MessageRegistersFrame :
    (∃ u, exec .sha1Round (roundState .sha1 79 1) = .next u) ∧ (∀ inv, Instr.sha1Round ≠ .startSha1 inv) ∧
    (∀ inv, Instr.sha1Round ≠ .startSha256 inv) ∧ ∀ alg, Instr.sha1Round ≠ .pad alg :=
  ⟨⟨_, rfl⟩, by simp, by simp, by simp⟩

/-- Each clause's instruction runs. -/
theorem witness_HashRegistersFrame :
    (∃ u, exec (.check .sha1) (running .sha1 0x1) = .next u) ∧ (∃ u, exec .sha1InitAcc (running .sha1 0x3) = .next u) ∧
    (∃ u, exec .sha1Fold (running .sha1 0x8) = .next u) ∧ (∃ u, exec .sha256Expand { running .sha256 0x5 with t := 63 } = .next u) ∧
    (∃ u, exec .sha1InitWs (running .sha1 0x6) = .next u) ∧ ∃ u, exec .sha1Round (roundState .sha1 0 1) = .next u :=
  ⟨⟨_, rfl⟩, ⟨_, rfl⟩, ⟨_, rfl⟩, ⟨_, rfl⟩, ⟨_, rfl⟩, _, rfl⟩

/-- SHA1.FOLD is none of the instructions the first four clauses except. -/
theorem witness_StatusAndPortsFrame :
    (∃ u, exec .sha1Fold (running .sha1 0x8) = .next u) ∧ (∀ inv, Instr.sha1Fold ≠ .startSha1 inv) ∧
    (∀ inv, Instr.sha1Fold ≠ .startSha256 inv) ∧ (∀ c, Instr.sha1Fold ≠ .illegal c) ∧ (∀ alg, Instr.sha1Fold ≠ .check alg) ∧
    (∀ alg, Instr.sha1Fold ≠ .pad alg) ∧ Instr.sha1Fold ≠ .sha1Finalize ∧ Instr.sha1Fold ≠ .readStatus :=
  ⟨⟨_, rfl⟩, by simp, by simp, by simp, by simp, by simp, by simp, by simp⟩

/-- Each of the host's turns. -/
theorem witness_PhaseTransitions_host :
    (∃ u, step (hosted [.write 0x00000001 []]) = .next u) ∧ (∃ u, step (hosted [.write 0x00000041 []]) = .next u) ∧
    (∃ u, step (hosted [.reset]) = .next u) ∧ (∃ u, step (hosted [.read]) = .next u) ∧ ∃ u, step (hosted [.wait]) = .next u :=
  ⟨⟨_, rfl⟩, ⟨_, rfl⟩, ⟨_, rfl⟩, ⟨_, rfl⟩, _, rfl⟩

/-- Each phase in which the engine moves; a phase may lead to more than one. -/
theorem witness_PhaseTransitions_engine :
    (∃ u, step (running .sha1 0x1) = .next u) ∧ (∃ u, step (running .sha1 0x2) = .next u) ∧
    (∃ u, step { running .sha1 0x2 with len := 2 ^ 61 } = .next u) ∧ (∃ u, step (running .sha1 0x3) = .next u) ∧
    (∃ u, step { running .sha1 0x4 with p := paddedBuffer abc } = .next u) ∧
    (∃ u, step { running .sha256 0x5 with t := 63 } = .next u) ∧ (∃ u, step (running .sha1 0x6) = .next u) ∧
    (∃ u, step (roundState .sha256 63 1) = .next u) ∧ (∃ u, step (running .sha1 0x8) = .next u) ∧
    (∃ u, step (running .sha1 0x9) = .next u) ∧ ∃ u, step { running .sha1 0xA with host := [.engine] } = .next u :=
  ⟨⟨_, rfl⟩, ⟨_, rfl⟩, ⟨_, rfl⟩, ⟨_, rfl⟩, ⟨_, rfl⟩, ⟨_, rfl⟩, ⟨_, rfl⟩, ⟨_, rfl⟩, ⟨_, rfl⟩, ⟨_, rfl⟩, _, rfl⟩

theorem witness_ResetReturnsToIdle : ∃ rest, { roundState .sha1 3 7 with host := [.reset] }.host = .reset :: rest := ⟨_, rfl⟩

/-- BufferStaysCanonical and StepKeepsInvariant. -/
theorem witness_StepKeepsInvariant :
    Memory.wf (abcState .sha1 0x1).p ∧ Inv (abcState .sha1 0x1) ∧ ∃ u, step (abcState .sha1 0x1) = .next u :=
  ⟨List.Pairwise.nil, abcState_inv .sha1 [], _, rfl⟩

theorem witness_InvariantExcludesFaults : Inv (abcState .sha256 0x1) := abcState_inv .sha256 []

/-- A command write while the computation runs. -/
theorem witness_OnlyProtocolViolationsRefused :
    Inv { abcState .sha1 0x1 with host := [.write 0x1 []] } ∧
    step { abcState .sha1 0x1 with host := [.write 0x1 []] } = .refused .commandWhileBusy := ⟨abcState_inv .sha1 _, rfl⟩

/-- A START above the capacity, in an idle state that meets the invariant. -/
theorem witness_OnlyProtocolViolationsRefused_capacity :
    ∃ s : State, Inv s ∧ step s = .refused .messageOverCapacity := by
  refine ⟨{ hosted [.write 0x1 abc] with msgCapacity := 2 }, ?_, rfl⟩
  constructor <;> decide

/-- A state before LOAD_BLOCK and one that differs from it in the schedule, the working registers, ACC[7], T, I, MSG and L. -/
theorem witness_UnwrittenRegistersNeverRead :
    ∃ s u : State, LiveAgree s u ∧ s.w ≠ u.w ∧ s.regs ≠ u.regs ∧ s.acc ≠ u.acc ∧ s.t ≠ u.t ∧ s.msg ≠ u.msg := by
  refine ⟨abcState .sha1 0x4, { abcState .sha1 0x4 with
    w := Vector.replicate 80 1
    regs := regsOf 2
    acc := #v[0, 0, 0, 0, 0, 3, 3, 3]
    t := 80
    i := 80
    msg := []
    len := 0 }, ?_, by decide, by decide, by decide, by decide, by decide⟩
  constructor <;> first | decide | (unfold accAgree; decide) | exact fun h => absurd h (by decide)

/-- DONE with every register of the last computation changed. -/
theorem witness_NoStateCarriesOver :
    ∃ s u : State, s ≠ u ∧ s.phase = 0xA ∧
      ∃ (alg : Alg) (inv : Bool) (msg : List Byte) (len : Nat) (p : Memory) (n blk t i : Nat) (w : Vector Word32 80) (regs : Regs)
        (acc : Vector Word32 8),
        u = { s with alg := alg, inv := inv, msg := msg, len := len, p := p, n := n, blk := blk, t := t, i := i, w := w, regs := regs, acc := acc } :=
  ⟨running .sha1 0xA, { running .sha1 0xA with alg := .sha256, len := 5, regs := regsOf 1 }, by decide, rfl,
    .sha256, _, _, 5, _, _, _, _, _, _, regsOf 1, _, rfl⟩

/-- The shorter runs are those of 0 to 118 steps here (V-KAT-4's count, R40). -/
theorem witness_ComputationRunsToDone :
    118 < computationSteps .sha256 1 ∧ ∃ s : State, s.phase = 0x1 ∧ s.inv = false ∧ s.len = s.msg.length ∧ s.msg.length < 2 ^ 61 ∧ s.status.errcode.toNat < 4 ∧
      s.host = [] ∧ s.sink = ⟨[], true⟩ :=
  ⟨by decide, abcState .sha256 0x1, rfl, rfl, rfl, by decide, by decide, rfl, rfl⟩

end Sys2Proof.Tests
end

section
/-! PROOF. The scope's operators: the byte sequences of R15 and the word operators of R14, as numbers and bit by bit. -/

namespace Sys2Proof.Machine

/-! Byte sequences (R15). -/

/-- Appending a byte at the least significant end is one step of reading big-endian. -/
theorem toNat_append_byte {n : Nat} (x : BitVec n) (b : Byte) : (x ++ b).toNat = 256 * x.toNat + b.toNat := by
  rw [BitVec.toNat_append, ← Nat.shiftLeft_add_eq_or_of_lt b.isLt, Nat.shiftLeft_eq, Nat.mul_comm]

theorem toNat_be32 (b0 b1 b2 b3 : Byte) :
    (be32 b0 b1 b2 b3).toNat = b0.toNat * 2 ^ 24 + b1.toNat * 2 ^ 16 + b2.toNat * 2 ^ 8 + b3.toNat := by
  rw [be32, toNat_append_byte, toNat_append_byte, toNat_append_byte]
  omega

theorem getElem?_be64bytes (v : Word64) {k : Nat} (h : k < 8) :
    (be64bytes v)[k]? = some (v.extractLsb' (56 - 8 * k) 8) := by
  interval_cases k <;> rfl

/-- Read big-endian, the eight bytes give the number they were taken from. -/
theorem foldl_be64bytes (v : Word64) : (be64bytes v).foldl (fun x b => 256 * x + b.toNat) 0 = v.toNat := by
  have hv : v.toNat < 2 ^ 64 := v.isLt
  simp only [be64bytes, List.foldl_cons, List.foldl_nil, BitVec.extractLsb'_toNat, Nat.shiftRight_eq_div_pow]
  omega

/-! Word operators (R14). -/

theorem toNat_shr (x : Word32) (n : Nat) : (shr x n).toNat = x.toNat / 2 ^ n := by
  rw [shr, BitVec.toNat_ushiftRight, Nat.shiftRight_eq_div_pow]

theorem toNat_shl (x : Word32) (n : Nat) : (x <<< n).toNat = (x.toNat * 2 ^ n) % 2 ^ 32 := by
  rw [BitVec.toNat_shiftLeft, Nat.shiftLeft_eq]

theorem toNat_rotl (x : Word32) (n : Nat) :
    (rotl x n).toNat = (x.toNat * 2 ^ n) % 2 ^ 32 ||| x.toNat / 2 ^ (32 - n) := by
  rw [rotl, BitVec.toNat_or, toNat_shl, toNat_shr]

theorem toNat_rotr (x : Word32) (n : Nat) :
    (rotr x n).toNat = x.toNat / 2 ^ n ||| (x.toNat * 2 ^ (32 - n)) % 2 ^ 32 := by
  rw [rotr, BitVec.toNat_or, toNat_shl, toNat_shr]

theorem getLsbD_shr (x : Word32) (n k : Nat) : (shr x n).getLsbD k = x.getLsbD (k + n) := by
  rw [shr, BitVec.getLsbD_ushiftRight, Nat.add_comm]

/-- A right rotation brings bit `k + n` (mod 32) to bit `k`: below `32 - n` from the right shift, above from the left shift. -/
theorem getLsbD_rotr (x : Word32) {n k : Nat} (hn : n ≤ 31) (hk : k < 32) :
    (rotr x n).getLsbD k = x.getLsbD ((k + n) % 32) := by
  rw [rotr, BitVec.getLsbD_or, getLsbD_shr, BitVec.getLsbD_shiftLeft]
  by_cases h : k + n < 32
  · rw [Nat.mod_eq_of_lt h]
    simp [show k < 32 - n by omega]
  · rw [BitVec.getLsbD_of_ge x (k + n) (by omega), show (k + n) % 32 = k - (32 - n) by omega]
    simp [hk, show ¬ k < 32 - n by omega]

theorem rotl_eq_rotr (x : Word32) {n : Nat} (hn : n ≤ 32) : rotl x n = rotr x (32 - n) := by
  rw [rotl, rotr, BitVec.or_comm, Nat.sub_sub_self hn]

/-- A left rotation brings bit `k` to bit `k + n` (mod 32). -/
theorem getLsbD_rotl (x : Word32) {n k : Nat} (h1 : 1 ≤ n) (hn : n ≤ 31) (hk : k < 32) :
    (rotl x n).getLsbD ((k + n) % 32) = x.getLsbD k := by
  rw [rotl_eq_rotr x (by omega), getLsbD_rotr x (by omega) (Nat.mod_lt _ (by decide)),
    show ((k + n) % 32 + (32 - n)) % 32 = k by omega]

/-- Settles O20: each byte appended to `be32` is one big-endian step, and `be64bytes` lists the slices that add up to `v`. -/
theorem bigEndianBytes : Obligations.BigEndianBytes :=
  ⟨toNat_be32, fun v => ⟨length_be64bytes v, fun _ hk => getElem?_be64bytes v hk, foldl_be64bytes v⟩⟩

/-- Settles O24: the sums, NOT and the bitwise operators are the library's; a rotation is an OR of two shifts, exactly one of
which reaches each bit. -/
theorem wordOperators : Obligations.WordOperators := by
  intro x y z
  have hsum : (x + y + z).toNat = (x.toNat + y.toNat + z.toNat) % 2 ^ 32 := by
    rw [BitVec.toNat_add, BitVec.toNat_add, Nat.mod_add_mod]
  refine ⟨BitVec.toNat_add x y, hsum, BitVec.add_assoc x y z, BitVec.add_comm x y, BitVec.toNat_not,
    fun k => ⟨BitVec.getLsbD_and, BitVec.getLsbD_or, BitVec.getLsbD_xor⟩, fun n _ => toNat_shr x n, ?_⟩
  intro n h1 hn
  exact ⟨toNat_rotl x n, toNat_rotr x n, fun k hk => ⟨getLsbD_rotl x h1 hn hk, getLsbD_rotr x hn hk⟩⟩

end Sys2Proof.Machine
end

section
/-! PROOF. A whole computation, from CHECK to DONE (R40, R62). Each phase has one rule that says what its step does for either
algorithm; each loop (the blocks, the schedule words, the rounds) has a predicate that holds at its head and says how far the
registers have come against the reference function; an induction over each loop puts the steps together. -/

namespace Sys2Proof.Machine

/-! Runs whose states before the last are all in CHECK to FINALIZE. -/

/-- `k` steps lead from `s` to `u`, and every shorter run from `s` is in one of CHECK to FINALIZE. -/
def BusyRun (k : Nat) (s u : State) : Prop :=
  core.run k s = .next u ∧ ∀ j, j < k → ∃ v : State, core.run j s = .next v ∧ 1 ≤ v.phase.toNat ∧ v.phase.toNat ≤ 9

theorem BusyRun.refl (s : State) : BusyRun 0 s s :=
  ⟨rfl, fun _ hj => absurd hj (Nat.not_lt_zero _)⟩

theorem BusyRun.single {s u : State} {phase : BitVec 4} (h : step s = .next u) (hp : s.phase = phase)
    (hb : 1 ≤ phase.toNat ∧ phase.toNat ≤ 9) : BusyRun 1 s u := by
  refine ⟨?_, fun j hj => ⟨s, ?_, hp ▸ hb⟩⟩
  · simp only [Host.Core.run, show core.step s = .next u from h]
  · rw [Nat.lt_one_iff.1 hj]
    rfl

theorem BusyRun.trans {a b : Nat} {s u v : State} (h1 : BusyRun a s u) (h2 : BusyRun b u v) : BusyRun (a + b) s v := by
  refine ⟨run_trans h1.1 h2.1, fun j hj => ?_⟩
  by_cases ha : j < a
  · exact h1.2 j ha
  · obtain ⟨x, hx, hphase⟩ := h2.2 (j - a) (by omega)
    refine ⟨x, ?_, hphase⟩
    rw [show j = a + (j - a) by omega]
    exact run_trans h1.1 hx

/-! The engine left to itself: no host turn, a sink that accepts every event. -/

/-- Without a host turn a step is the micro-operation of the phase, in the state itself. -/
theorem step_no_turns {s : State} {phase : BitVec 4} (hh : s.host = []) (he : s.status.errcode.toNat < 4) (hp : s.phase = phase)
    (hlt : phase.toNat < 12) : step s = exec (decodePhase s.alg phase) s := by
  have hs : { s with host := s.host.tail } = s := by
    rw [hh]
    exact congrArg (fun x => { s with host := x }) hh.symm
  rw [step_engine (.inl hh) (meaninglessState_none (hp ▸ hlt) he), hs, hp]

/-- A sink that accepts every event takes it, and does so again. -/
theorem emitOrHold_open {e : Event} {t s : State} (h : s.sink = ⟨[], true⟩) :
    emitOrHold e t s = .next { t with out := s.out ++ [e], sink := s.sink } := by
  rw [emitOrHold_accepted (by rw [h]; rfl), show s.sink.answered = s.sink by rw [h]; rfl]

/-- From INIT_ACC to FINALIZE of a computation with `alg` on `msg`: what stays the same, if the engine is left to itself. -/
structure Computing (alg : Alg) (msg : List Byte) (s : State) : Prop where
  alg_eq : s.alg = alg
  errcode_legal : s.status.errcode.toNat < 4
  host_eq : s.host = []
  sink_eq : s.sink = ⟨[], true⟩
  buffer_eq : s.p = paddedBuffer msg
  count_eq : s.n = blockCount msg.length

section
variable {alg : Alg} {msg : List Byte} {s : State}

/-- The registers that INIT_ACC to FOLD write are none of those. -/
theorem Computing.keep {phase : BitVec 4} {blk t i : Nat} {w : Vector Word32 80} {regs : Regs} {acc : Vector Word32 8}
    {out : List Event} (h : Computing alg msg s) :
    Computing alg msg
      { s with phase := phase, blk := blk, t := t, i := i, w := w, regs := regs, acc := acc, out := out } :=
  ⟨h.alg_eq, h.errcode_legal, h.host_eq, h.sink_eq, h.buffer_eq, h.count_eq⟩

theorem Computing.step {phase : BitVec 4} (h : Computing alg msg s) (hp : s.phase = phase) (hlt : phase.toNat < 12) :
    step s = exec (decodePhase alg phase) s :=
  h.alg_eq ▸ step_no_turns h.host_eq h.errcode_legal hp hlt

end

/-! Agreement of the registers an algorithm uses. -/

/-- ACC as registers, the form of the reference function. -/
def accRegs (acc : Vector Word32 8) : Regs :=
  ⟨acc[0], acc[1], acc[2], acc[3], acc[4], acc[5], acc[6], acc[7]⟩

/-- The registers after round `k` with schedule word `wk`, for either algorithm (R162, R192). -/
def roundRegs (alg : Alg) (k : Nat) (wk : Word32) (r : Regs) : Regs :=
  match alg with
  | .sha1 => sha1RoundRegs k wk r
  | .sha256 => sha256RoundRegs (kTable.getD k 0) wk r

theorem referenceRounds_succ (alg : Alg) (w : List Word32) (r : Regs) (k : Nat) :
    referenceRounds alg w r (k + 1) = roundRegs alg k (w.getD k 0) (referenceRounds alg w r k) := by
  cases alg <;> rfl

theorem sha1Snapshot_eq_iff {r q : Regs} :
    sha1Snapshot r = sha1Snapshot q ↔ r.a = q.a ∧ r.b = q.b ∧ r.c = q.c ∧ r.d = q.d ∧ r.e = q.e := by
  simp [sha1Snapshot]

theorem regsAgree.trans {alg : Alg} {x y z : Regs} (h1 : regsAgree alg x y) (h2 : regsAgree alg y z) : regsAgree alg x z := by
  cases alg
  · exact Eq.trans (α := List Word32) h1 h2
  · exact Eq.trans (α := Regs) h1 h2

theorem regsAgree.snapshot_eq {alg : Alg} {r q : Regs} (h : regsAgree alg r q) : snapshot alg r = snapshot alg q := by
  cases alg
  · exact h
  · exact congrArg sha256Snapshot h

/-- A round reads only the registers the algorithm uses. -/
theorem regsAgree.round {alg : Alg} {r q : Regs} (h : regsAgree alg r q) (k : Nat) (wk : Word32) :
    regsAgree alg (roundRegs alg k wk r) (roundRegs alg k wk q) := by
  cases alg with
  | sha1 =>
    obtain ⟨ha, hb, hc, hd, he⟩ := sha1Snapshot_eq_iff.1 h
    simp only [regsAgree, roundRegs, sha1RoundRegs, sha1Snapshot, ha, hb, hc, hd, he]
  | sha256 => exact congrArg _ h

theorem regsAgree.add {alg : Alg} {r q x y : Regs} (h1 : regsAgree alg r q) (h2 : regsAgree alg x y) :
    regsAgree alg (addRegs r x) (addRegs q y) := by
  cases alg with
  | sha1 =>
    obtain ⟨ha, hb, hc, hd, he⟩ := sha1Snapshot_eq_iff.1 h1
    obtain ⟨ha', hb', hc', hd', he'⟩ := sha1Snapshot_eq_iff.1 h2
    simp only [regsAgree, addRegs, sha1Snapshot, ha, hb, hc, hd, he, ha', hb', hc', hd', he']
  | sha256 => exact congrArg₂ addRegs h1 h2

/-! Agreement of the schedule. -/

/-- W begins with the words `ws`. -/
def holdsWords (ws : List Word32) (w : Vector Word32 80) : Prop :=
  ∀ j, (h : j < 80) → j < ws.length → w[j] = ws.getD j 0

theorem holdsWords.set {ws : List Word32} {w : Vector Word32 80} (h : holdsWords ws w) (x : Word32) {t : Nat} (ht : t < 80)
    (hl : t = ws.length) : holdsWords (ws ++ [x]) (w.set t x ht) := by
  intro j hj hlt
  rw [List.length_append, List.length_singleton] at hlt
  by_cases hjt : j = t
  · subst hjt
    rw [Vector.getElem_set_self, List.getD_append_right _ _ _ _ (by omega), hl, Nat.sub_self]
    rfl
  · rw [Vector.getElem_set_ne _ _ (Ne.symm hjt), List.getD_append _ _ _ _ (by omega), h j hj (by omega)]

/-- The engine's next schedule word is the reference function's. -/
theorem sha1ScheduleWord_eq {ws : List Word32} {w : Vector Word32 80} (h : holdsWords ws w) {t : Nat} (ht : 16 ≤ t ∧ t < 80)
    (hl : t = ws.length) : sha1ScheduleWord w t ht = referenceWord .sha1 ws := by
  subst hl
  rw [sha1ScheduleWord, h _ _ (by omega), h _ _ (by omega), h _ _ (by omega), h _ _ (by omega), referenceWord]

theorem sha256ScheduleWord_eq {ws : List Word32} {w : Vector Word32 80} (h : holdsWords ws w) {t : Nat} (ht : 16 ≤ t ∧ t < 64)
    (hl : t = ws.length) : sha256ScheduleWord w t ht = referenceWord .sha256 ws := by
  subst hl
  rw [sha256ScheduleWord, h _ _ (by omega), h _ _ (by omega), h _ _ (by omega), h _ _ (by omega), referenceWord]

theorem length_referenceExtend (alg : Alg) (count : Nat) (ws : List Word32) :
    (referenceExtend alg count ws).length = ws.length + count := by
  induction count generalizing ws with
  | zero => rfl
  | succ count ih =>
    rw [referenceExtend, ih, List.length_append, List.length_singleton]
    omega

@[simp] theorem length_referenceBlock (bytes : List Byte) (b : Nat) : (referenceBlock bytes b).length = 16 := by
  simp [referenceBlock]

theorem scheduleLength_bounds (alg : Alg) : 16 < scheduleLength alg ∧ scheduleLength alg ≤ 80 := by
  cases alg <;> decide

/-- There is a schedule word for every round. -/
theorem roundCount_eq_scheduleLength (alg : Alg) : roundCount alg = scheduleLength alg := by
  cases alg <;> rfl

theorem length_referenceSchedule (alg : Alg) (bytes : List Byte) (b : Nat) :
    (referenceSchedule alg bytes b).length = scheduleLength alg := by
  have := scheduleLength_bounds alg
  rw [referenceSchedule, length_referenceExtend, length_referenceBlock]
  omega

/-- P holds the words of each block of the padded message (R53, R124). -/
theorem readWords_paddedBuffer {msg : List Byte} {b : Nat} (hb : b < blockCount msg.length) :
    (paddedBuffer msg).readWords (64 * b) 16 = some (referenceBlock (padBytes msg) b) := by
  refine Memory.readWords_eq _ (fun k => (padBytes msg).getD (64 * b + k) 0) 16 (64 * b) fun k hk => ?_
  have hlen := length_padBytes_blocks msg
  rw [read_paddedBuffer, List.getD_eq_getElem _ _ (by omega), List.getElem?_eq_getElem]

theorem holdsWords_setFirstWords {ws : List Word32} (w : Vector Word32 80) : holdsWords ws (setFirstWords w ws) := by
  intro j hj hlt
  rw [setFirstWords_get, List.getD_eq_getElem _ _ hlt, List.getElem?_eq_getElem hlt, Option.getD_some]

/-! What the step of each phase does, for either algorithm. -/

section
variable {alg : Alg} {msg : List Byte} {s : State}

/-- CHECK with INV = 0 (R120). -/
theorem step_check (hp : s.phase = Phase.check) (hinv : s.inv = false) (he : s.status.errcode.toNat < 4) (hh : s.host = []) :
    step s = .next { s with phase := Phase.pad } := by
  rw [step_no_turns hh he hp (by decide)]
  show execCheck s = _
  rw [execCheck, if_neg (by simp [hinv])]

/-- PAD with a message that can be hashed (R121). -/
theorem step_pad (hp : s.phase = Phase.pad) (hlen : s.len = s.msg.length) (hmax : s.len < 2 ^ 61)
    (he : s.status.errcode.toNat < 4) (hh : s.host = []) :
    step s = .next { s with p := paddedBuffer s.msg, n := blockCount s.len, phase := Phase.initAcc } := by
  rw [step_no_turns hh he hp (by decide)]
  show execPad s = _
  rw [execPad, if_neg (by omega), messageBytes_whole hlen]

theorem step_initAcc (h : Computing alg msg s) (hp : s.phase = Phase.initAcc) :
    ∃ acc, step s = .next { s with acc := acc, blk := 0, phase := Phase.loadBlock } ∧
      regsAgree alg (accRegs acc) (referenceInit alg) := by
  rw [h.step hp (by decide)]
  cases alg <;> exact ⟨_, rfl, rfl⟩

theorem step_loadBlock (h : Computing alg msg s) (hp : s.phase = Phase.loadBlock) (hb : s.blk < blockCount msg.length) :
    step s = .next { s with
      w := setFirstWords s.w (referenceBlock (padBytes msg) s.blk), t := 16, phase := Phase.expand } := by
  rw [h.step hp (by decide)]
  show execLoadBlock s = _
  rw [execLoadBlock, h.buffer_eq, readWords_paddedBuffer hb]

theorem step_expand (h : Computing alg msg s) (hp : s.phase = Phase.expand) {ws : List Word32} (hw : holdsWords ws s.w)
    (ht : s.t = ws.length) (h16 : 16 ≤ s.t) (hlt : s.t < scheduleLength alg) :
    step s = .next { s with
      w := s.w.set s.t (referenceWord alg ws) (Nat.lt_of_lt_of_le hlt (scheduleLength_bounds alg).2)
      t := s.t + 1
      phase := if s.t + 1 = scheduleLength alg then Phase.initWs else Phase.expand } := by
  rw [h.step hp (by decide)]
  cases alg with
  | sha1 =>
    show execSha1Expand s = _
    rw [execSha1Expand, dif_pos ⟨h16, hlt⟩, sha1ScheduleWord_eq hw ⟨h16, hlt⟩ ht]
    rfl
  | sha256 =>
    show execSha256Expand s = _
    rw [execSha256Expand, dif_pos ⟨h16, hlt⟩, sha256ScheduleWord_eq hw ⟨h16, hlt⟩ ht]
    rfl

theorem step_initWs (h : Computing alg msg s) (hp : s.phase = Phase.initWs) :
    ∃ regs, step s = .next { s with regs := regs, i := 0, phase := Phase.round } ∧ regsAgree alg regs (accRegs s.acc) := by
  rw [h.step hp (by decide)]
  cases alg <;> exact ⟨_, rfl, rfl⟩

theorem step_round (h : Computing alg msg s) (hp : s.phase = Phase.round) {wi : Word32}
    (hi : s.i < roundCount alg) (hw : ∀ h80 : s.i < 80, s.w[s.i] = wi) :
    step s = .next { s with
      regs := roundRegs alg s.i wi s.regs
      i := s.i + 1
      phase := if s.i + 1 = roundCount alg then Phase.fold else Phase.round
      out := s.out ++ [.round (s.i + 1) (snapshot alg (roundRegs alg s.i wi s.regs))] } := by
  rw [h.step hp (by decide)]
  cases alg with
  | sha1 =>
    have hi : s.i < 80 := hi
    show execSha1Round s = _
    rw [execSha1Round, dif_pos hi, hw hi]
    exact emitOrHold_open h.sink_eq
  | sha256 =>
    have hi : s.i < 64 := hi
    have hk : k256 s.i hi = kTable.getD s.i 0 := (List.getD_eq_getElem _ _ _).symm
    show execSha256Round s = _
    rw [execSha256Round, dif_pos hi, hw (by omega), hk]
    exact emitOrHold_open h.sink_eq

theorem step_fold (h : Computing alg msg s) (hp : s.phase = Phase.fold) :
    ∃ acc, step s = .next { s with
        acc := acc, blk := s.blk + 1, phase := if s.blk + 1 = s.n then Phase.finalize else Phase.loadBlock } ∧
      regsAgree alg (accRegs acc) (addRegs (accRegs s.acc) s.regs) := by
  rw [h.step hp (by decide)]
  cases alg <;> exact ⟨_, rfl, rfl⟩

/-- The Digest is made of the digits of the accumulator's registers (R220, R221). -/
theorem step_finalize (h : Computing alg msg s) (hp : s.phase = Phase.finalize) :
    step s = .next { s with
      status := statusFinished alg
      phase := Phase.done
      out := s.out ++ [.digest ((snapshot alg (accRegs s.acc)).flatMap hex8)] } := by
  rw [h.step hp (by decide)]
  cases alg with
  | sha1 =>
    have hd : sha1Digest s.acc = (snapshot .sha1 (accRegs s.acc)).flatMap hex8 := by
      simp [sha1Digest, snapshot, sha1Snapshot, accRegs]
    rw [← hd]
    exact emitOrHold_open h.sink_eq
  | sha256 =>
    have hd : sha256Digest s.acc = (snapshot .sha256 (accRegs s.acc)).flatMap hex8 := by
      simp [sha256Digest, snapshot, sha256Snapshot, accRegs]
    rw [← hd]
    exact emitOrHold_open h.sink_eq

end

/-! The loops. Each predicate holds at the head of its loop; the last time round, its phase is the one that follows the loop. -/

/-- Inside block `b`: ACC is the reference's accumulator before the block. -/
structure InBlock (alg : Alg) (msg : List Byte) (b : Nat) (s : State) : Prop extends Computing alg msg s where
  blk_eq : s.blk = b
  acc_agree : regsAgree alg (accRegs s.acc) (referenceAcc alg (padBytes msg) b)

/-- Before block `b`, or after the last block: `b` blocks have been folded. -/
structure BlockHead (alg : Alg) (msg : List Byte) (out : List Event) (b : Nat) (s : State) : Prop
    extends InBlock alg msg b s where
  phase_eq : s.phase = if b = blockCount msg.length then Phase.finalize else Phase.loadBlock
  out_eq : s.out = out ++ (List.range b).flatMap (referenceBlockEvents alg (padBytes msg))

/-- Before the next schedule word of block `b`, or after the last one: W holds the words `ws`. -/
structure ExpandHead (alg : Alg) (msg : List Byte) (out : List Event) (b : Nat) (ws : List Word32) (s : State) : Prop
    extends InBlock alg msg b s where
  phase_eq : s.phase = if ws.length = scheduleLength alg then Phase.initWs else Phase.expand
  t_eq : s.t = ws.length
  words : holdsWords ws s.w
  out_eq : s.out = out

/-- Before round `k` of block `b`, or after the last one: `k` rounds have been taken. -/
structure RoundHead (alg : Alg) (msg : List Byte) (out : List Event) (b k : Nat) (s : State) : Prop
    extends InBlock alg msg b s where
  phase_eq : s.phase = if k = roundCount alg then Phase.fold else Phase.round
  i_eq : s.i = k
  words : holdsWords (referenceSchedule alg (padBytes msg) b) s.w
  regs_agree : regsAgree alg s.regs
    (referenceRounds alg (referenceSchedule alg (padBytes msg) b) (referenceAcc alg (padBytes msg) b) k)
  out_eq : s.out = out ++ (List.range k).map fun j =>
    .round (j + 1) (snapshot alg
      (referenceRounds alg (referenceSchedule alg (padBytes msg) b) (referenceAcc alg (padBytes msg) b) (j + 1)))

section
variable {alg : Alg} {msg : List Byte} {out : List Event} {b : Nat} {s : State}

/-- EXPAND, once. -/
theorem ExpandHead.next {ws : List Word32} (h : ExpandHead alg msg out b ws s) (h16 : 16 ≤ ws.length)
    (hlt : ws.length < scheduleLength alg) :
    ∃ u, BusyRun 1 s u ∧ ExpandHead alg msg out b (ws ++ [referenceWord alg ws]) u := by
  have hp : s.phase = Phase.expand := by rw [h.phase_eq, if_neg (by omega)]
  have ht := h.t_eq
  have h80 : s.t < 80 := by have := scheduleLength_bounds alg; omega
  refine ⟨_, .single (step_expand h.toComputing hp h.words ht (by omega) (by omega)) hp (by decide), ?_⟩
  have hl : (ws ++ [referenceWord alg ws]).length = s.t + 1 := by rw [ht, List.length_append, List.length_singleton]
  exact ⟨⟨h.toComputing.keep, h.blk_eq, h.acc_agree⟩, by rw [hl], hl.symm, h.words.set _ h80 ht, h.out_eq⟩

/-- EXPAND, until the schedule is complete. -/
theorem ExpandHead.run {count : Nat} {ws : List Word32} (h : ExpandHead alg msg out b ws s) (h16 : 16 ≤ ws.length)
    (hc : ws.length + count = scheduleLength alg) :
    ∃ u, BusyRun count s u ∧ ExpandHead alg msg out b (referenceExtend alg count ws) u := by
  induction count generalizing ws s with
  | zero => exact ⟨s, .refl s, h⟩
  | succ count ih =>
    obtain ⟨v, hv, hhead⟩ := h.next h16 (by omega)
    have hl : (ws ++ [referenceWord alg ws]).length = ws.length + 1 := by rw [List.length_append, List.length_singleton]
    obtain ⟨u, hu, hhead⟩ := ih hhead (by omega) (by omega)
    exact ⟨u, Nat.add_comm 1 count ▸ hv.trans hu, hhead⟩

/-- INIT_WS. -/
theorem ExpandHead.initWs (h : ExpandHead alg msg out b (referenceSchedule alg (padBytes msg) b) s) :
    ∃ u, BusyRun 1 s u ∧ RoundHead alg msg out b 0 u := by
  have hp : s.phase = Phase.initWs := by rw [h.phase_eq, if_pos (length_referenceSchedule alg _ b)]
  obtain ⟨regs, hs, hregs⟩ := step_initWs h.toComputing hp
  refine ⟨_, .single hs hp (by decide), ⟨h.toComputing.keep, h.blk_eq, h.acc_agree⟩, ?_, rfl, h.words,
    hregs.trans h.acc_agree, h.out_eq.trans (List.append_nil out).symm⟩
  rw [if_neg (by cases alg <;> decide)]

/-- ROUND, once. -/
theorem RoundHead.next {k : Nat} (h : RoundHead alg msg out b k s) (hlt : k < roundCount alg) :
    ∃ u, BusyRun 1 s u ∧ RoundHead alg msg out b (k + 1) u := by
  have hp : s.phase = Phase.round := by rw [h.phase_eq, if_neg (by omega)]
  have hi := h.i_eq
  have hw : ∀ h80 : s.i < 80, s.w[s.i] = (referenceSchedule alg (padBytes msg) b).getD k 0 := fun h80 => by
    rw [h.words _ h80 (by rw [length_referenceSchedule, ← roundCount_eq_scheduleLength]; omega), hi]
  have hr := h.regs_agree.round k ((referenceSchedule alg (padBytes msg) b).getD k 0)
  rw [← referenceRounds_succ] at hr
  refine ⟨_, .single (step_round h.toComputing hp (by omega) hw) hp (by decide), ?_⟩
  subst hi
  refine ⟨⟨h.toComputing.keep, h.blk_eq, h.acc_agree⟩, rfl, rfl, h.words, hr, ?_⟩
  rw [h.out_eq, hr.snapshot_eq, List.range_succ, List.map_append, List.append_assoc]
  rfl

/-- ROUND, until all rounds are taken. -/
theorem RoundHead.run {count k : Nat} (h : RoundHead alg msg out b k s) (hc : k + count = roundCount alg) :
    ∃ u, BusyRun count s u ∧ RoundHead alg msg out b (roundCount alg) u := by
  induction count generalizing k s with
  | zero => exact ⟨s, .refl s, hc ▸ h⟩
  | succ count ih =>
    obtain ⟨v, hv, hhead⟩ := h.next (by omega)
    obtain ⟨u, hu, hhead⟩ := ih hhead (by omega)
    exact ⟨u, Nat.add_comm 1 count ▸ hv.trans hu, hhead⟩

/-- LOAD_BLOCK. -/
theorem BlockHead.loadBlock (h : BlockHead alg msg out b s) (hb : b < blockCount msg.length) :
    ∃ u, BusyRun 1 s u ∧ ExpandHead alg msg s.out b (referenceBlock (padBytes msg) b) u := by
  have hp : s.phase = Phase.loadBlock := by rw [h.phase_eq, if_neg (by omega)]
  have hblk := h.blk_eq
  refine ⟨_, .single (step_loadBlock h.toComputing hp (by omega)) hp (by decide), ?_⟩
  subst hblk
  refine ⟨⟨h.toComputing.keep, rfl, h.acc_agree⟩, ?_, (length_referenceBlock _ _).symm, holdsWords_setFirstWords _, rfl⟩
  have := scheduleLength_bounds alg
  rw [length_referenceBlock, if_neg (by omega)]

/-- FOLD. -/
theorem RoundHead.fold (h : RoundHead alg msg (out ++ (List.range b).flatMap (referenceBlockEvents alg (padBytes msg))) b
      (roundCount alg) s) :
    ∃ u, BusyRun 1 s u ∧ BlockHead alg msg out (b + 1) u := by
  have hp : s.phase = Phase.fold := by rw [h.phase_eq, if_pos rfl]
  obtain ⟨acc, hs, hacc⟩ := step_fold h.toComputing hp
  refine ⟨_, .single hs hp (by decide), ⟨h.toComputing.keep, congrArg (· + 1) h.blk_eq, ?_⟩, ?_, ?_⟩
  · exact hacc.trans (h.acc_agree.add h.regs_agree)
  · rw [h.blk_eq, h.count_eq]
  · rw [h.out_eq, List.range_succ, List.flatMap_append, List.flatMap_singleton, List.append_assoc]
    rfl

/-- The steps of one block (R40). -/
def blockSteps (alg : Alg) : Nat :=
  1 + (scheduleLength alg - 16) + 1 + roundCount alg + 1

/-- One block, from LOAD_BLOCK to FOLD. -/
theorem BlockHead.next (h : BlockHead alg msg out b s) (hb : b < blockCount msg.length) :
    ∃ u, BusyRun (blockSteps alg) s u ∧ BlockHead alg msg out (b + 1) u := by
  have hnw := scheduleLength_bounds alg
  obtain ⟨s1, run1, head1⟩ := h.loadBlock hb
  obtain ⟨s2, run2, head2⟩ := head1.run (count := scheduleLength alg - 16) (length_referenceBlock _ b).ge
    (by rw [length_referenceBlock]; omega)
  obtain ⟨s3, run3, head3⟩ := head2.initWs
  obtain ⟨s4, run4, head4⟩ := head3.run (Nat.zero_add _)
  obtain ⟨s5, run5, head5⟩ := (h.out_eq ▸ head4).fold
  exact ⟨s5, (((run1.trans run2).trans run3).trans run4).trans run5, head5⟩

/-- The blocks that are left. -/
theorem BlockHead.run {count : Nat} (h : BlockHead alg msg out b s) (hc : b + count = blockCount msg.length) :
    ∃ u, BusyRun (count * blockSteps alg) s u ∧ BlockHead alg msg out (blockCount msg.length) u := by
  induction count generalizing b s with
  | zero => exact ⟨s, (Nat.zero_mul (blockSteps alg)).symm ▸ .refl s, hc ▸ h⟩
  | succ count ih =>
    obtain ⟨v, hv, hhead⟩ := h.next (by omega)
    obtain ⟨u, hu, hhead⟩ := ih hhead (by omega)
    refine ⟨u, ?_, hhead⟩
    rw [Nat.succ_mul, Nat.add_comm]
    exact hv.trans hu

/-- FINALIZE. -/
theorem BlockHead.finalize (h : BlockHead alg msg out (blockCount msg.length) s) :
    ∃ u, BusyRun 1 s u ∧ u.phase = Phase.done ∧ u.status = statusFinished alg ∧ u.out = out ++ referenceEvents alg msg := by
  have hp : s.phase = Phase.finalize := by rw [h.phase_eq, if_pos rfl]
  refine ⟨_, .single (step_finalize h.toComputing hp) hp (by decide), rfl, rfl, ?_⟩
  rw [h.out_eq, h.acc_agree.snapshot_eq, referenceEvents, List.append_assoc]

end

/-- CHECK and PAD, with a message that can be hashed (R120, R121). -/
theorem check_pad_run {s : State} (hp : s.phase = Phase.check) (hinv : s.inv = false) (hlen : s.len = s.msg.length)
    (hmax : s.msg.length < 2 ^ 61) (he : s.status.errcode.toNat < 4) (hh : s.host = []) (hk : s.sink = ⟨[], true⟩) :
    ∃ u, BusyRun 2 s u ∧ Computing s.alg s.msg u ∧ u.phase = Phase.initAcc ∧ u.out = s.out := by
  have hmax : s.len < 2 ^ 61 := hlen ▸ hmax
  have run1 : BusyRun 1 s { s with phase := Phase.pad } := .single (step_check hp hinv he hh) hp (by decide)
  have run2 := BusyRun.single (step_pad (s := { s with phase := Phase.pad }) rfl hlen hmax he hh) rfl (phase := Phase.pad)
    (by decide)
  exact ⟨_, run1.trans run2, ⟨rfl, he, hh, hk, rfl, congrArg blockCount hlen⟩, rfl, rfl⟩

/-- INIT_ACC. -/
theorem Computing.initAcc {alg : Alg} {msg : List Byte} {s : State} (h : Computing alg msg s) (hp : s.phase = Phase.initAcc) :
    ∃ u, BusyRun 1 s u ∧ BlockHead alg msg s.out 0 u := by
  obtain ⟨acc, hs, hacc⟩ := step_initAcc h hp
  refine ⟨_, .single hs hp (by decide), ⟨h.keep, rfl, hacc⟩, ?_, (List.append_nil _).symm⟩
  rw [if_neg (blockCount_pos msg.length).ne]

/-- Settles O60: three steps to the first block, an induction over the blocks with one over the schedule words and one over the
rounds inside, and FINALIZE. -/
theorem computationRunsToDone : Obligations.ComputationRunsToDone := by
  refine ⟨fun n => ?_, fun s hp hinv hlen hmax he hh hk => ?_⟩
  · simp only [computationSteps, scheduleLength, roundCount]
    omega
  · obtain ⟨s1, run1, hcomp, hphase, hout⟩ := check_pad_run hp hinv hlen hmax he hh hk
    obtain ⟨s2, run2, head2⟩ := hcomp.initAcc hphase
    obtain ⟨s3, run3, head3⟩ := head2.run (Nat.zero_add _)
    obtain ⟨u, run4, hdone, hstatus, hevents⟩ := head3.finalize
    have hrun : BusyRun (computationSteps s.alg (blockCount s.msg.length)) s u := ((run1.trans run2).trans run3).trans run4
    rw [hlen, ← blockCount_eq]
    exact ⟨hrun.2, u, hrun.1, hdone, hstatus, hout ▸ hevents⟩

end Sys2Proof.Machine
end

section
/-! PROOF. The transitions of PHASE (R39): what each instruction leaves in PHASE, then the step by its turn. -/

namespace Sys2Proof.Machine

theorem meaninglessState_of_next {s u : State} (h : step s = .next u) (hr : ∀ rest, s.host ≠ .reset :: rest) :
    meaninglessState s = none := by
  rcases step_cases h with ⟨rest, hh, _⟩ | ⟨_, hm, _⟩
  · exact absurd hh (hr rest)
  · exact hm

/-- A command write is answered in IDLE, DONE and ERROR only; a legal word leads to CHECK, every other one to ERROR. -/
theorem phase_of_command {c : Word32} {s u : State} (h : exec (decodeCmd c) s = .next u) :
    acceptsCommand s.phase = true ∧ u.phase = if legalCommand c = true then Phase.check else Phase.error := by
  have hstart {alg : Alg} {inv : Bool} (hs : startCommand alg inv s = .next u) (hc : legalCommand c = true) :
      acceptsCommand s.phase = true ∧ u.phase = if legalCommand c = true then Phase.check else Phase.error := by
    obtain ⟨ha, -, rfl⟩ := startCommand_next hs
    exact ⟨ha, (if_pos hc).symm⟩
  rcases decodeCmd_cases c with ⟨rfl, hd⟩ | ⟨rfl, hd⟩ | ⟨rfl, hd⟩ | ⟨rfl, hd⟩ | ⟨hc, hd⟩ <;> rw [hd] at h
  · exact hstart (alg := .sha1) (inv := false) h (by decide)
  · exact hstart (alg := .sha1) (inv := true) h (by decide)
  · exact hstart (alg := .sha256) (inv := false) h (by decide)
  · exact hstart (alg := .sha256) (inv := true) h (by decide)
  · obtain ⟨ha, hr⟩ := onCommand_next (s := s) h
    cases hr
    exact ⟨ha, by simp [hc]⟩

/-- For an index below its bound, "the next one is the bound" and "the next one is still below it" exclude each other. -/
theorem ite_last_eq {α : Type} {t n : Nat} (h : t < n) (last more : α) :
    (if t + 1 = n then last else more) = if t + 1 < n then more else last := by
  by_cases hl : t + 1 = n
  · rw [if_pos hl, if_neg (by omega)]
  · rw [if_neg hl, if_pos (by omega)]

/-! The micro-operations. -/

section
variable {alg : Alg} {s u : State}

theorem phase_of_check (h : execCheck s = .next u) : u.phase = if s.inv = true then Phase.error else Phase.pad := by
  rcases execCheck_next h with ⟨hi, rfl⟩ | ⟨hi, rfl⟩ <;> simp [hi]

/-- A message whose bit length does not fit 64 bits raises LengthOverflow (R122). -/
theorem phase_of_pad (h : execPad s = .next u) : u.phase = if 2 ^ 64 ≤ 8 * s.len then Phase.error else Phase.initAcc := by
  rcases execPad_next h with ⟨hl, rfl⟩ | ⟨hl, -, rfl⟩
  · rw [if_pos (by omega)]
    rfl
  · rw [if_neg (by omega)]

theorem phase_of_initAcc (h : exec (decodePhase alg Phase.initAcc) s = .next u) : u.phase = Phase.loadBlock := by
  cases alg <;> cases h <;> rfl

theorem phase_of_loadBlock (h : execLoadBlock s = .next u) : u.phase = Phase.expand := by
  obtain ⟨_, -, rfl⟩ := execLoadBlock_next h
  rfl

theorem phase_of_expand (h : exec (decodePhase alg Phase.expand) s = .next u) :
    s.t < scheduleLength alg ∧ u.phase = if s.t + 1 < scheduleLength alg then Phase.expand else Phase.initWs := by
  cases alg with
  | sha1 =>
    obtain ⟨hr, rfl⟩ := execSha1Expand_next h
    exact ⟨hr.2, ite_last_eq hr.2 _ _⟩
  | sha256 =>
    obtain ⟨hr, rfl⟩ := execSha256Expand_next h
    exact ⟨hr.2, ite_last_eq hr.2 _ _⟩

theorem phase_of_initWs (h : exec (decodePhase alg Phase.initWs) s = .next u) : u.phase = Phase.round := by
  cases alg <;> cases h <;> rfl

/-- Without the sink's answer a round keeps PHASE (R281). -/
theorem phase_of_round (hp : s.phase = Phase.round) (h : exec (decodePhase alg Phase.round) s = .next u) :
    s.i < roundCount alg ∧
      u.phase = if s.sink.accepts = true ∧ s.i + 1 = roundCount alg then Phase.fold else Phase.round := by
  cases alg with
  | sha1 =>
    obtain ⟨hr, ⟨ha, rfl⟩ | ⟨ha, rfl⟩⟩ := execSha1Round_next h <;> exact ⟨hr, by simp [ha, hp, roundCount]⟩
  | sha256 =>
    obtain ⟨hr, ⟨ha, rfl⟩ | ⟨ha, rfl⟩⟩ := execSha256Round_next h <;> exact ⟨hr, by simp [ha, hp, roundCount]⟩

theorem phase_of_fold (h : exec (decodePhase alg Phase.fold) s = .next u) :
    u.phase = if s.blk + 1 = s.n then Phase.finalize else Phase.loadBlock := by
  cases alg <;> cases h <;> rfl

theorem phase_of_emitOrHold {e : Event} {t : State} (h : emitOrHold e t s = .next u) :
    u.phase = if s.sink.accepts = true then t.phase else s.phase := by
  rcases emitOrHold_next h with ⟨ha, rfl⟩ | ⟨ha, rfl⟩ <;> simp [ha]

theorem phase_of_finalize (hp : s.phase = Phase.finalize) (h : exec (decodePhase alg Phase.finalize) s = .next u) :
    u.phase = if s.sink.accepts = true then Phase.done else Phase.finalize := by
  rw [← hp]
  cases alg <;> exact phase_of_emitOrHold (s := s) h

/-- The engine has no step to take in these phases (R223, R224, R251). -/
theorem phase_of_rest (hp : s.phase = Phase.idle ∨ s.phase = Phase.done ∨ s.phase = Phase.error)
    (h : exec (decodePhase alg s.phase) s = .next u) : u.phase = s.phase := by
  rcases hp with hp | hp | hp <;> rw [hp] at h <;> cases h <;> rfl

end

/-- Settles O51: each turn runs one instruction, and each instruction's next state says its PHASE. -/
theorem phaseTransitions : Obligations.PhaseTransitions := by
  intro s u h
  refine ⟨fun c msg rest hh => ?_, fun rest hh => ?_, fun rest hh => ?_, fun ht => ?_⟩
  · rw [step_write hh (meaninglessState_of_next h (by simp [hh]))] at h
    obtain ⟨ha, hu⟩ := phase_of_command h
    refine ⟨(acceptsCommand_iff s.phase).1 ha, ?_⟩
    simpa only [legalCommand, Bool.or_eq_true, beq_iff_eq] using hu
  · rw [step_reset hh] at h
    cases h
    rfl
  · obtain ⟨turns, hs⟩ := step_read hh (meaninglessState_of_next h (by rcases hh with hh | hh <;> simp [hh]))
    rw [hs] at h
    cases h
    rfl
  · have hx {phase : BitVec 4} (hp : s.phase = phase) :
        exec (decodePhase s.alg phase) { s with host := s.host.tail } = .next u := by
      rw [← h, step_engine ht (meaninglessState_of_next h (engineTurn_no_reset ht)), hp]
    exact ⟨fun hp => (phase_of_rest (s := { s with host := s.host.tail }) hp (hx rfl) :), fun hp => (phase_of_check (hx hp) :),
      fun hp => (phase_of_pad (hx hp) :), fun hp => (phase_of_initAcc (hx hp) :), fun hp => (phase_of_loadBlock (hx hp) :),
      fun hp => (phase_of_expand (hx hp) :), fun hp => (phase_of_initWs (hx hp) :),
      fun hp => (phase_of_round (s := { s with host := s.host.tail }) hp (hx hp) :), fun hp => (phase_of_fold (hx hp) :),
      fun hp => (phase_of_finalize (s := { s with host := s.host.tail }) hp (hx hp) :)⟩

end Sys2Proof.Machine
end

section
/-! PROOF. The encoding: what every command word decodes to (R74), and what a reserved PHASE code does (R76). -/

namespace Sys2Proof

/-- A word with the fields of a START is SHA1 or SHA256 by its ALG bit, with INV as its operand (R70, R74). The mask clears INV alone:
what is left of the word is ALG and OP. -/
theorem command_of_legal_fields {c : Word32} (h : c.extractLsb' 0 4 = 0x1#4 ∧ c.extractLsb' 6 26 = 0#26) :
    decode (.cmd c) = .ok (if c.getLsbD 4 = true then .startSha256 (c.getLsbD 5) else .startSha1 (c.getLsbD 5)) ∧
      c &&& 0xFFFFFFDF#32 = if c.getLsbD 4 = true then 0x00000011#32 else 0x00000001#32 := by
  rcases (legal_fields_iff c).1 h with rfl | rfl | rfl | rfl <;> exact ⟨rfl, rfl⟩

/-- The two mask equations of R74 hold for no word but those with the fields of a START. -/
theorem legal_fields_of_mask {c : Word32} (h : c &&& 0xFFFFFFDF#32 = 0x00000001#32 ∨ c &&& 0xFFFFFFDF#32 = 0x00000011#32) :
    c.extractLsb' 0 4 = 0x1#4 ∧ c.extractLsb' 6 26 = 0#26 := by
  rw [← legalCommand_iff]
  simpa only [legalCommand, Bool.or_eq_true, beq_iff_eq] using h

/-- Settles O2: ALG picks the START and the value the mask leaves; a word without the fields of a START is ILLEGAL. -/
theorem commandWordsDecode : Obligations.CommandWordsDecode := by
  refine fun c => ⟨fun hop hrsv halg => ?_, fun hop hrsv halg => ?_, fun hfields => ?_, legal_fields_iff c⟩
  · have hc := command_of_legal_fields ⟨hop, hrsv⟩
    rw [halg] at hc
    exact hc
  · have hc := command_of_legal_fields ⟨hop, hrsv⟩
    rw [halg] at hc
    exact hc
  · have hnot := not_and_or.2 hfields
    exact ⟨congrArg Except.ok (if_neg hnot), fun hm => hnot (legal_fields_of_mask (.inl hm)),
      fun hm => hnot (legal_fields_of_mask (.inr hm))⟩

end Sys2Proof

namespace Sys2Proof.Machine

/-- A reserved PHASE is the first thing a step looks at (R76). -/
theorem meaninglessState_reservedPhase {s : State} (h : 12 ≤ s.phase.toNat) : meaninglessState s = some .reservedPhase :=
  if_pos (decide_eq_true h)

/-- Whichever of two legal codes an instruction chooses, it writes a legal one. -/
theorem phase_legal_ite {c : Prop} [Decidable c] {p q r : BitVec 4} (h : r = if c then p else q) (hp : p.toNat < 12)
    (hq : q.toNat < 12) : r.toNat < 12 := by
  rw [h]
  split
  · exact hp
  · exact hq

/-- No instruction writes a reserved PHASE code: each writes a code of the table, or keeps PHASE where the sink holds an event
back or the engine has nothing to do (R76). -/
theorem exec_phase_legal {i : Instr} {s u : State} (hs : s.phase.toNat < 12) (h : exec i s = .next u) : u.phase.toNat < 12 := by
  cases i with
  | startSha1 inv | startSha256 inv =>
    obtain ⟨-, -, rfl⟩ := startCommand_next h
    exact (by decide : Phase.check.toNat < 12)
  | illegal c =>
    obtain ⟨-, hr⟩ := onCommand_next h
    cases hr
    exact (by decide : Phase.error.toNat < 12)
  | check alg => exact phase_legal_ite (phase_of_check h) (by decide) (by decide)
  | pad alg => exact phase_legal_ite (phase_of_pad h) (by decide) (by decide)
  | sha1InitAcc | sha256InitAcc =>
    cases h
    exact (by decide : Phase.loadBlock.toNat < 12)
  | loadBlock alg =>
    rw [phase_of_loadBlock h]
    decide
  | sha1Expand => exact phase_legal_ite (phase_of_expand (alg := .sha1) h).2 (by decide) (by decide)
  | sha256Expand => exact phase_legal_ite (phase_of_expand (alg := .sha256) h).2 (by decide) (by decide)
  | sha1InitWs | sha256InitWs =>
    cases h
    exact (by decide : Phase.round.toNat < 12)
  | sha1Round =>
    obtain ⟨-, ⟨-, rfl⟩ | ⟨-, rfl⟩⟩ := execSha1Round_next h
    · exact phase_legal_ite rfl (by decide : Phase.fold.toNat < 12) (by decide : Phase.round.toNat < 12)
    · exact hs
  | sha256Round =>
    obtain ⟨-, ⟨-, rfl⟩ | ⟨-, rfl⟩⟩ := execSha256Round_next h
    · exact phase_legal_ite rfl (by decide : Phase.fold.toNat < 12) (by decide : Phase.round.toNat < 12)
    · exact hs
  | sha1Fold => exact phase_legal_ite (phase_of_fold (alg := .sha1) h) (by decide) (by decide)
  | sha256Fold => exact phase_legal_ite (phase_of_fold (alg := .sha256) h) (by decide) (by decide)
  | sha1Finalize | sha256Finalize =>
    exact phase_legal_ite (phase_of_emitOrHold h) (by decide : Phase.done.toNat < 12) hs
  | readStatus | idle _ | done _ | error _ =>
    cases h
    exact hs
  | reservedPhase alg code => cases h

/-- Settles O7: a step looks at PHASE before it decodes anything, and each instruction's next state has a legal PHASE. -/
theorem reservedPhaseFaults : Obligations.ReservedPhaseFaults := by
  refine ⟨fun s hphase hhost => ?_, fun alg code s => rfl, fun i s u => exec_phase_legal⟩
  rw [step_no_reset hhost, meaninglessState_reservedPhase hphase]

end Sys2Proof.Machine
end

section
/-! PROOF. The host's command writes (R101, R102, R103, R105): which words are the two STARTs and ILLEGAL, and what a command does
where it is accepted and while a computation runs. -/

namespace Sys2Proof

/-- The mask of R74 clears INV alone, so the ALG bit of a word stands in what it leaves. -/
theorem alg_bit_of_mask {c v : Word32} (h : c &&& 0xFFFFFFDF#32 = v) : c.getLsbD 4 = v.getLsbD 4 := by
  have hmask : (0xFFFFFFDF#32).getLsbD 4 = true := by decide
  rw [← h, BitVec.getLsbD_and, hmask, Bool.and_true]

theorem decode_startSha1_of_mask {c : Word32} (h : c &&& 0xFFFFFFDF#32 = 0x00000001#32) :
    decode (.cmd c) = .ok (.startSha1 (c.getLsbD 5)) := by
  obtain ⟨hdecode, -⟩ := command_of_legal_fields (legal_fields_of_mask (.inl h))
  rw [alg_bit_of_mask h] at hdecode
  exact hdecode

theorem decode_startSha256_of_mask {c : Word32} (h : c &&& 0xFFFFFFDF#32 = 0x00000011#32) :
    decode (.cmd c) = .ok (.startSha256 (c.getLsbD 5)) := by
  obtain ⟨hdecode, -⟩ := command_of_legal_fields (legal_fields_of_mask (.inr h))
  rw [alg_bit_of_mask h] at hdecode
  exact hdecode

end Sys2Proof

namespace Sys2Proof.Machine

/-- A START of either algorithm begins a computation where a command is accepted, if its operand fits or is too long for any
capacity (R100, R106). -/
theorem startCommand_begins {s : State} (alg : Alg) (inv : Bool)
    (hp : s.phase = Phase.idle ∨ s.phase = Phase.done ∨ s.phase = Phase.error)
    (hlen : s.msgIn.length ≤ s.msgCapacity ∨ 2 ^ 61 ≤ s.msgIn.length) :
    startCommand alg inv s = .next (beginComputation alg inv s) :=
  startCommand_accepted ((acceptsCommand_iff s.phase).2 hp) (by rw [overCapacity_eq_false hlen, Bool.and_false])

/-- Settles O9: the ALG bit left by the mask is 0, and an accepted START of SHA1 is `beginComputation`. -/
theorem startSha1Begins : Obligations.StartSha1Begins :=
  ⟨fun _ hmask => decode_startSha1_of_mask hmask, fun _ inv hphase hlen => ⟨startCommand_begins .sha1 inv hphase hlen, rfl⟩⟩

/-- Settles O10: the ALG bit left by the mask is 1, and an accepted START of SHA256 is `beginComputation`. -/
theorem startSha256Begins : Obligations.StartSha256Begins :=
  ⟨fun _ hmask => decode_startSha256_of_mask hmask, fun _ inv hphase hlen => ⟨startCommand_begins .sha256 inv hphase hlen, rfl⟩⟩

/-- Settles O11: R74's ILLEGAL row, and an accepted ILLEGAL is the error entry with SALG kept. -/
theorem illegalCommandRaises : Obligations.IllegalCommandRaises := by
  refine ⟨fun c hfields => ?_, fun s c hphase => ?_⟩
  · obtain ⟨-, -, hillegal, -⟩ := commandWordsDecode c
    exact (hillegal hfields).1
  · exact onCommand_accepted (.next (raise .illegalCommand s)) ((acceptsCommand_iff s.phase).2 hphase)

/-- Settles O13: each of the three commands goes through the command port, which refuses it while a computation runs. -/
theorem busyCommandRefused : Obligations.BusyCommandRefused :=
  fun _ _ _ hlo hhi => ⟨onCommand_busy _ ⟨hlo, hhi⟩, onCommand_busy _ ⟨hlo, hhi⟩, onCommand_busy _ ⟨hlo, hhi⟩⟩

end Sys2Proof.Machine
end

section
/-! PROOF. The message padder (R120 to R125): what CHECK and PAD do in each case, then P region by region. -/

namespace Sys2Proof.Machine

/-! CHECK and PAD by their cases. -/

theorem execCheck_proceeds {s : State} (h : s.inv = false) : execCheck s = .next { s with phase := Phase.pad } :=
  if_neg (by simp [h])

theorem execCheck_raises {s : State} (h : s.inv = true) : execCheck s = .next (raise .invalidInput s) := if_pos h

theorem execPad_overflow {s : State} (h : 2 ^ 61 ≤ s.len) : execPad s = .next (raise .lengthOverflow s) := if_pos h

theorem execPad_hashable {s : State} (hlen : s.len = s.msg.length) (hmax : s.len < 2 ^ 61) :
    execPad s = .next { s with p := paddedBuffer s.msg, n := blockCount s.len, phase := Phase.initAcc } := by
  rw [execPad, if_neg (by omega), messageBytes_whole hlen]

/-! P region by region: the message, 0x80, the zero fill, the bit length, and nothing beyond. -/

section
variable {msg : List Byte}

theorem read_paddedBuffer_message {a : Nat} (h : a < msg.length) : (paddedBuffer msg).read a = msg[a]? := by
  rw [read_paddedBuffer, padBytes_message h]

theorem read_paddedBuffer_one : (paddedBuffer msg).read msg.length = some 0x80 := by
  rw [read_paddedBuffer, padBytes_one]

theorem read_paddedBuffer_zero {a : Nat} (h1 : msg.length < a) (h2 : a ≤ msg.length + zeroCount msg.length) :
    (paddedBuffer msg).read a = some 0x00 := by
  rw [read_paddedBuffer, padBytes_zero h1 h2]

theorem read_paddedBuffer_bitLength {j : Nat} (h : j < 8) :
    (paddedBuffer msg).read (msg.length + 1 + zeroCount msg.length + j) =
      some ((BitVec.ofNat 64 (8 * msg.length)).extractLsb' (56 - 8 * j) 8) := by
  rw [read_paddedBuffer, padBytes_length_field, getElem?_be64bytes _ h]

theorem read_paddedBuffer_beyond {a : Nat} (h : msg.length + zeroCount msg.length + 9 ≤ a) : (paddedBuffer msg).read a = none := by
  have hlen := length_padBytes msg
  rw [read_paddedBuffer, List.getElem?_eq_none (by omega)]

end

/-- Settles O16: INV alone chooses between the next phase and the error entry. -/
theorem checkTurnsInvIntoException : Obligations.CheckTurnsInvIntoException :=
  fun _ _ => ⟨execCheck_proceeds, execCheck_raises⟩

/-- Settles O17: k is `zeroCount`, and below 2^61 bytes the buffer PAD writes is `paddedBuffer`, read region by region. -/
theorem padBuildsBuffer : Obligations.PadBuildsBuffer := by
  refine fun alg s k hk => ⟨fun hlen hmax => ?_, execPad_overflow⟩
  obtain rfl : k = zeroCount s.len := by
    have hzero := zeroCount_eq s.len
    omega
  refine ⟨_, execPad_hashable hlen hmax, rfl, ?_⟩
  rw [hlen]
  exact ⟨fun _ => read_paddedBuffer_message, read_paddedBuffer_one, fun _ => read_paddedBuffer_zero,
    fun _ => read_paddedBuffer_bitLength, fun _ => read_paddedBuffer_beyond⟩

/-- Settles O18: the length of P is that of the padded message, a whole number of blocks, and its last 8 bytes are the bit length. -/
theorem paddedBufferInvariants : Obligations.PaddedBufferInvariants := by
  intro alg s u hlen hmax hpad
  cases (execPad_hashable hlen hmax).symm.trans hpad
  have hbytes : (paddedBuffer s.msg).length = s.msg.length + 1 + zeroCount s.msg.length + 8 := by
    rw [length_paddedBuffer, length_padBytes]
  have hblocks : (paddedBuffer s.msg).length = 64 * blockCount s.msg.length := by
    rw [length_paddedBuffer, length_padBytes_blocks]
  have hzero := zeroCount_eq s.msg.length
  have hfill := zeroCount_lt s.msg.length
  have hcount := blockCount_eq s.msg.length
  have hfield : (paddedBuffer s.msg).length - 8 = s.msg.length + 1 + zeroCount s.msg.length := by omega
  simp only [hlen, hfield]
  refine ⟨⟨?_, ?_⟩, ⟨?_, ?_⟩, ⟨?_, hcount, blockCount_pos _⟩, fun _ => read_paddedBuffer_message, read_paddedBuffer_one,
    fun a h1 h2 => read_paddedBuffer_zero h1 (by omega), fun _ => read_paddedBuffer_bitLength⟩ <;> omega

/-- Settles O19: what PAD writes to P and N is a function of MSG and L. -/
theorem padDependsOnMessageOnly : Obligations.PadDependsOnMessageOnly := by
  intro a b s t hmsg hsame hlen hmax
  have hlen' : t.len = t.msg.length := by rw [← hsame, ← hmsg, hlen]
  exact ⟨_, _, execPad_hashable hlen hmax, execPad_hashable hlen' (hsame ▸ hmax), congrArg paddedBuffer hmsg,
    congrArg blockCount hsame⟩

end Sys2Proof.Machine
end

section
/-! PROOF. The schedule (R140 to R143): the block's words in W, the word each EXPAND writes, and the schedule functions bit by bit. -/

namespace Sys2Proof.Machine

/-! LOAD_BLOCK (R140). -/

/-- Where P holds the 64 bytes of block BLK, LOAD_BLOCK puts their sixteen big-endian words first in W (R53). -/
theorem execLoadBlock_loads {s : State} {byte : Nat → Byte} (h : ∀ k, k < 64 → s.p.read (64 * s.blk + k) = some (byte k)) :
    execLoadBlock s = .next { s with
      w := setFirstWords s.w
        ((List.range 16).map fun j => be32 (byte (4 * j)) (byte (4 * j + 1)) (byte (4 * j + 2)) (byte (4 * j + 3)))
      t := 16
      phase := Phase.expand } := by
  rw [execLoadBlock, Memory.readWords_eq s.p byte 16 (64 * s.blk) h]

/-- Entry `j` of W after its first `n` entries are replaced by the values of `f`. -/
theorem setFirstWords_map_range (w : Vector Word32 80) (f : Nat → Word32) (n : Nat) {j : Nat} (h : j < 80) :
    (setFirstWords w ((List.range n).map f))[j] = if j < n then f j else w[j] := by
  rw [setFirstWords_get, List.getElem?_map]
  split
  · rw [List.getElem?_range ‹_›, Option.map_some, Option.getD_some]
  · rw [List.getElem?_eq_none (by rw [List.length_range]; omega), Option.map_none, Option.getD_none]

/-- Settles O21: the words are read from the bytes P holds, and `setFirstWords` replaces the first sixteen entries only. -/
theorem loadBlockLoadsWords : Obligations.LoadBlockLoadsWords := by
  refine fun _ s byte hbytes => ⟨_, execLoadBlock_loads hbytes, rfl, fun j hj => ?_, fun j hj hkept => ?_⟩
  · exact (setFirstWords_map_range s.w _ 16 (by omega)).trans (if_pos hj)
  · exact (setFirstWords_map_range s.w _ 16 hj).trans (if_neg (by omega))

/-! The schedule functions (R142). -/

/-- The logical shift brings bit `k + n`, or zero where there is none (R14). -/
theorem getLsbD_shr_zero_filled (x : Word32) (n k : Nat) :
    (shr x n).getLsbD k = (decide (k + n < 32) && x.getLsbD (k + n)) := by
  rw [getLsbD_shr]
  by_cases h : k + n < 32
  · rw [decide_eq_true h, Bool.true_and]
  · rw [decide_eq_false h, Bool.false_and, BitVec.getLsbD_of_ge x (k + n) (by omega)]

/-- The form both schedule functions have: two rotations and a shift. -/
theorem getLsbD_rotr_xor_rotr_xor_shr (x : Word32) {a b : Nat} (c : Nat) {k : Nat} (ha : a ≤ 31) (hb : b ≤ 31) (hk : k < 32) :
    (rotr x a ^^^ rotr x b ^^^ shr x c).getLsbD k =
      (x.getLsbD ((k + a) % 32) ^^ x.getLsbD ((k + b) % 32) ^^ (decide (k + c < 32) && x.getLsbD (k + c))) := by
  rw [BitVec.getLsbD_xor, BitVec.getLsbD_xor, getLsbD_rotr x ha hk, getLsbD_rotr x hb hk, getLsbD_shr_zero_filled]

/-- Settles O25: both are two rotations and a shift, with amounts of their own. -/
theorem scheduleFunctionsBitwise : Obligations.ScheduleFunctionsBitwise :=
  fun x _ hk => ⟨getLsbD_rotr_xor_rotr_xor_shr x 3 (by decide) (by decide) hk,
    getLsbD_rotr_xor_rotr_xor_shr x 10 (by decide) (by decide) hk⟩

/-! EXPAND (R141, R143). -/

theorem execSha1Expand_writes {s : State} (h : 16 ≤ s.t ∧ s.t < 80) :
    execSha1Expand s = .next { s with
      w := s.w.set s.t (sha1ScheduleWord s.w s.t h) h.2
      t := s.t + 1
      phase := if s.t + 1 = 80 then Phase.initWs else Phase.expand } := dif_pos h

theorem execSha256Expand_writes {s : State} (h : 16 ≤ s.t ∧ s.t < 64) :
    execSha256Expand s = .next { s with
      w := s.w.set s.t (sha256ScheduleWord s.w s.t h) (Nat.lt_trans h.2 (by decide))
      t := s.t + 1
      phase := if s.t + 1 = 64 then Phase.initWs else Phase.expand } := dif_pos h

/-- Settles O22: in the range of R141 the step writes `sha1ScheduleWord`, which is R141's word, to entry T alone. -/
theorem sha1ExpandWritesWord : Obligations.Sha1ExpandWritesWord :=
  fun _ h => ⟨_, execSha1Expand_writes h, rfl, Vector.getElem_set_self _,
    fun _ hj hne => Vector.getElem_set_ne h.2 hj hne.symm⟩

/-- Settles O23: in the range of R143 the step writes `sha256ScheduleWord`, which is R143's word, to entry T alone. -/
theorem sha256ExpandWritesWord : Obligations.Sha256ExpandWritesWord :=
  fun _ h => ⟨_, execSha256Expand_writes h, rfl, Vector.getElem_set_self _,
    fun _ hj hne => Vector.getElem_set_ne (Nat.lt_trans h.2 (by decide)) hj hne.symm⟩

end Sys2Proof.Machine
end

section
/-! PROOF. The SHA-1 compression pipeline (R160 to R165): the round constant and the round function by their ranges, and what each of
its four instructions does. -/

namespace Sys2Proof.Machine

/-! The XOR forms of Ch and Maj (R165), which are `ch` and `maj`. -/

/-- A bit of `b` selects the bit of `c` or that of `d`, so the two terms never both have a bit set. -/
theorem or_form_eq_ch (b c d : Word32) : (b &&& c) ||| (~~~b &&& d) = ch b c d := by
  have hbit : ∀ x y z : Bool, (x && y || !x && z) = ((x && y) ^^ (!x && z)) := by decide
  refine BitVec.eq_of_getElem_eq fun k hk => ?_
  simp only [ch, BitVec.getElem_or, BitVec.getElem_xor, BitVec.getElem_and, BitVec.getElem_not, hbit]

/-- Of three bits the number of pairs with both set is 0, 1 or 3, and 3 is odd. -/
theorem or_form_eq_maj (b c d : Word32) : (b &&& c) ||| (b &&& d) ||| (c &&& d) = maj b c d := by
  have hbit : ∀ x y z : Bool, (x && y || x && z || y && z) = ((x && y) ^^ (x && z) ^^ (y && z)) := by decide
  refine BitVec.eq_of_getElem_eq fun k hk => ?_
  simp only [maj, BitVec.getElem_or, BitVec.getElem_xor, BitVec.getElem_and, hbit]

/-! The ranges of the round index (R164, R165). -/

section
variable {i : Nat}

theorem k1_first (h : i < 20) : k1 i = 0x5A827999 := if_pos h

theorem k1_second (h1 : 20 ≤ i) (h2 : i < 40) : k1 i = 0x6ED9EBA1 := by
  rw [k1, if_neg (by omega), if_pos h2]

theorem k1_third (h1 : 40 ≤ i) (h2 : i < 60) : k1 i = 0x8F1BBCDC := by
  rw [k1, if_neg (by omega), if_neg (by omega), if_pos h2]

theorem k1_fourth (h : 60 ≤ i) : k1 i = 0xCA62C1D6 := by
  rw [k1, if_neg (by omega), if_neg (by omega), if_neg (by omega)]

variable (b c d : Word32)

theorem f1_eq_ch (h : i < 20) : f1 i b c d = ch b c d :=
  (if_pos h).trans (or_form_eq_ch b c d)

theorem f1_eq_maj (h1 : 40 ≤ i) (h2 : i < 60) : f1 i b c d = maj b c d := by
  rw [f1, if_neg (by omega), if_neg (by omega), if_pos h2, or_form_eq_maj]

/-- Parity stands in two ranges. -/
theorem f1_eq_parity (h : 20 ≤ i ∧ i < 40 ∨ 60 ≤ i) : f1 i b c d = b ^^^ c ^^^ d := by
  rw [f1, if_neg (by omega)]
  rcases h with ⟨-, h⟩ | h
  · rw [if_pos h]
  · rw [if_neg (by omega), if_neg (by omega)]

end

/-- Settles O30: each range has its constant, and Ch and Maj have the OR and the XOR form. -/
theorem sha1RoundTables : Obligations.Sha1RoundTables := by
  refine fun i b c d => ⟨fun h => ?_, fun h1 h2 => ?_, fun h1 h2 => ?_, fun h _ => ?_⟩
  · have hf := f1_eq_ch b c d h
    exact ⟨k1_first h, hf.trans (or_form_eq_ch b c d).symm, hf⟩
  · exact ⟨k1_second h1 h2, f1_eq_parity b c d (.inl ⟨h1, h2⟩)⟩
  · have hf := f1_eq_maj b c d h1 h2
    exact ⟨k1_third h1 h2, hf.trans (or_form_eq_maj b c d).symm, hf⟩
  · exact ⟨k1_fourth h, f1_eq_parity b c d (.inr h)⟩

/-! The instructions. -/

/-- Settles O26: SHA1.INIT_ACC has one outcome, R160's. -/
theorem sha1InitAccLoads : Obligations.Sha1InitAccLoads := fun _ => rfl

/-- Settles O27: SHA1.INIT_WS has one outcome, R161's. -/
theorem sha1InitWsLoads : Obligations.Sha1InitWsLoads := fun _ => rfl

/-- In the range of R162 a round offers the sink its event, with the registers after the round. -/
theorem execSha1Round_offers {s : State} (h : s.i < 80) :
    execSha1Round s = emitOrHold (.round (s.i + 1) (sha1Snapshot (sha1RoundRegs s.i s.w[s.i] s.regs)))
      { s with
        regs := sha1RoundRegs s.i s.w[s.i] s.regs
        i := s.i + 1
        phase := if s.i + 1 = 80 then Phase.fold else Phase.round } s := dif_pos h

/-- Settles O28: the sink's answer to the round's event decides between the round and the hold. -/
theorem sha1RoundStep : Obligations.Sha1RoundStep := by
  rintro s h temp rfl
  exact ⟨fun ha => ⟨_, (execSha1Round_offers h).trans (emitOrHold_accepted ha)⟩,
    fun ha => ⟨_, (execSha1Round_offers h).trans (emitOrHold_held ha)⟩⟩

/-- Settles O29: SHA1.FOLD has one outcome, R163's. -/
theorem sha1FoldAdds : Obligations.Sha1FoldAdds := fun _ => rfl

end Sys2Proof.Machine
end

section
/-! PROOF. The SHA-256 compression pipeline (R190 to R196): the table K and the round functions bit by bit, and what each of its four
instructions does. -/

namespace Sys2Proof.Machine

/-! The table K (R194). -/

theorem kTable_get? {i : Nat} (h : i < 64) : kTable[i]? = some (k256 i h) :=
  List.getElem?_eq_getElem (kTable_length.symm ▸ h)

/-! The round functions (R195). -/

/-- The form both `bigSigma` functions have: three rotations. -/
theorem getLsbD_rotr_xor_rotr_xor_rotr (x : Word32) {a b c k : Nat} (ha : a ≤ 31) (hb : b ≤ 31) (hc : c ≤ 31) (hk : k < 32) :
    (rotr x a ^^^ rotr x b ^^^ rotr x c).getLsbD k =
      (x.getLsbD ((k + a) % 32) ^^ x.getLsbD ((k + b) % 32) ^^ x.getLsbD ((k + c) % 32)) := by
  rw [BitVec.getLsbD_xor, BitVec.getLsbD_xor, getLsbD_rotr x ha hk, getLsbD_rotr x hb hk, getLsbD_rotr x hc hk]

/-- Ch selects: a bit of the first word takes the second word's bit where it is set, the third's where it is not. -/
theorem getLsbD_ch (a b c : Word32) {k : Nat} (hk : k < 32) :
    (ch a b c).getLsbD k = if a.getLsbD k then b.getLsbD k else c.getLsbD k := by
  have hselect : ∀ x y z : Bool, ((x && y) ^^ (!x && z)) = if x then y else z := by decide
  rw [ch, BitVec.getLsbD_xor, BitVec.getLsbD_and, BitVec.getLsbD_and, BitVec.getLsbD_not, decide_eq_true hk, Bool.true_and, hselect]

/-- Maj takes the majority: the bit the first two words agree on, or the third's where they differ. -/
theorem getLsbD_maj (a b c : Word32) (k : Nat) :
    (maj a b c).getLsbD k = if a.getLsbD k = b.getLsbD k then a.getLsbD k else c.getLsbD k := by
  have hmajority : ∀ x y z : Bool, ((x && y) ^^ (x && z) ^^ (y && z)) = if x = y then x else z := by decide
  rw [maj, BitVec.getLsbD_xor, BitVec.getLsbD_xor, BitVec.getLsbD_and, BitVec.getLsbD_and, BitVec.getLsbD_and, hmajority]

/-- Settles O35: the table is R194's, the `bigSigma` functions are three rotations each, and SHA-1's Ch and Maj are `ch` and `maj` in
their ranges. -/
theorem sha256RoundFunctions : Obligations.Sha256RoundFunctions :=
  ⟨rfl, fun _ => kTable_get?, fun a b c k hk =>
    ⟨getLsbD_rotr_xor_rotr_xor_rotr a (by decide) (by decide) (by decide) hk,
      getLsbD_rotr_xor_rotr_xor_rotr a (by decide) (by decide) (by decide) hk,
      getLsbD_ch a b c hk, getLsbD_maj a b c k,
      (f1_eq_ch a b c (by decide)).symm, (f1_eq_maj a b c (by decide) (by decide)).symm⟩⟩

/-! The instructions. -/

/-- Settles O31: SHA256.INIT_ACC has one outcome, R190's. -/
theorem sha256InitAccLoads : Obligations.Sha256InitAccLoads := fun _ => rfl

/-- Settles O32: SHA256.INIT_WS has one outcome, R191's. -/
theorem sha256InitWsLoads : Obligations.Sha256InitWsLoads := fun _ => rfl

/-- In the range of R192 a round offers the sink its event, with the registers after the round. -/
theorem execSha256Round_offers {s : State} (h : s.i < 64) :
    execSha256Round s =
      emitOrHold (.round (s.i + 1) (sha256Snapshot (sha256RoundRegs (k256 s.i h) (s.w[s.i]'(Nat.lt_trans h (by decide))) s.regs)))
        { s with
          regs := sha256RoundRegs (k256 s.i h) (s.w[s.i]'(Nat.lt_trans h (by decide))) s.regs
          i := s.i + 1
          phase := if s.i + 1 = 64 then Phase.fold else Phase.round } s := dif_pos h

/-- Settles O33: the sink's answer to the round's event decides between the round and the hold. -/
theorem sha256RoundStep : Obligations.Sha256RoundStep := by
  rintro s h temp1 temp2 rfl rfl
  exact ⟨fun ha => ⟨_, (execSha256Round_offers h).trans (emitOrHold_accepted ha)⟩,
    fun ha => ⟨_, (execSha256Round_offers h).trans (emitOrHold_held ha)⟩⟩

/-- Settles O34: SHA256.FOLD has one outcome, R193's. -/
theorem sha256FoldAdds : Obligations.Sha256FoldAdds := fun _ => rfl

end Sys2Proof.Machine
end

section
/-! PROOF. The digest finalizer (R220 to R222): the digits of a word, and what FINALIZE of each algorithm emits. -/

namespace Sys2Proof.Machine

/-! The digits of a word (R222). -/

theorem getElem?_hexDigits (n : BitVec 4) :
    ['0', '1', '2', '3', '4', '5', '6', '7', '8', '9', 'a', 'b', 'c', 'd', 'e', 'f'][n.toNat]? = some (hexdigit n) := by
  revert n
  decide

theorem hexdigit_injective : ∀ {m n : BitVec 4}, hexdigit m = hexdigit n → m = n := by
  decide

@[simp] theorem length_hex8 (v : Word32) : (hex8 v).length = 8 := rfl

/-- The digit of index `j` is the one of nibble `7 - j`. -/
theorem getElem?_hex8 (v : Word32) {j : Nat} (h : j < 8) :
    (hex8 v)[j]? = some (hexdigit (v.extractLsb' (4 * (7 - j)) 4)) := by
  interval_cases j <;> rfl

theorem toNat_nibble (v : Word32) (k : Nat) : (v.extractLsb' (4 * k) 4).toNat = v.toNat / 16 ^ k % 16 := by
  rw [BitVec.extractLsb'_toNat, Nat.shiftRight_eq_div_pow, pow_mul]
  rfl

/-- A word is made of its eight nibbles. -/
theorem eq_of_nibbles_eq {x v : Word32} (h : ∀ k, k < 8 → x.extractLsb' (4 * k) 4 = v.extractLsb' (4 * k) 4) : x = v := by
  refine BitVec.eq_of_getLsbD_eq fun b hb => ?_
  have hbit := congrArg (·.getLsbD (b % 4)) (h (b / 4) (by omega))
  simpa only [BitVec.getLsbD_extractLsb', Nat.mod_lt b (by decide : 4 > 0), Nat.div_add_mod, decide_true, Bool.true_and] using hbit

/-- A word is determined by its digits: each of them gives its nibble back. -/
theorem hex8_injective {x v : Word32} (h : hex8 x = hex8 v) : x = v := by
  refine eq_of_nibbles_eq fun k hk => hexdigit_injective (Option.some.inj ?_)
  have hj := getElem?_hex8 x (j := 7 - k) (by omega)
  rwa [h, getElem?_hex8 v (by omega), show 7 - (7 - k) = k by omega, eq_comm] at hj

/-- Settles O38: the `j`-th digit is the character of nibble `7 - j`, and the nibbles give the word back. -/
theorem hexDigitsOfWord : Obligations.HexDigitsOfWord :=
  fun v => ⟨length_hex8 v, fun j hj => by rw [getElem?_hex8 v hj, ← toNat_nibble, getElem?_hexDigits], fun _ => hex8_injective⟩

/-! FINALIZE (R220, R221). -/

/-- Settles O36: the sink's answer to the Digest decides between the end of the computation and the hold. -/
theorem sha1FinalizeEmitsDigest : Obligations.Sha1FinalizeEmitsDigest :=
  fun _ => ⟨fun ha => ⟨_, emitOrHold_accepted ha⟩, fun ha => ⟨_, emitOrHold_held ha⟩,
    by simp only [List.length_append, length_hex8], by decide⟩

/-- Settles O37: the sink's answer to the Digest decides between the end of the computation and the hold. -/
theorem sha256FinalizeEmitsDigest : Obligations.Sha256FinalizeEmitsDigest :=
  fun _ => ⟨fun ha => ⟨_, emitOrHold_accepted ha⟩, fun ha => ⟨_, emitOrHold_held ha⟩,
    by simp only [List.length_append, length_hex8], by decide⟩

end Sys2Proof.Machine
end

section
/-! PROOF. No state carries from one computation to the next (R225): a step from two states that agree on the live registers gives
the same outcome and states that agree again, and in IDLE, DONE and ERROR no engine register is live. -/

namespace Sys2Proof.Machine

/-! Results that agree. -/

theorem resultAgree_cases {rel : State → State → Prop} : ∀ {x y : Result}, resultAgree rel x y →
    (∃ s u, x = .next s ∧ y = .next u ∧ rel s u) ∨ (∃ f, x = .fault f ∧ y = .fault f) ∨ ∃ r, x = .refused r ∧ y = .refused r
  | .next s, .next u, h => .inl ⟨s, u, rfl, rfl, h⟩
  | .fault f, .fault _, h => .inr (.inl ⟨f, rfl, congrArg _ (Eq.symm h)⟩)
  | .refused r, .refused _, h => .inr (.inr ⟨r, rfl, congrArg _ (Eq.symm h)⟩)

theorem resultAgree.mono {rel rel' : State → State → Prop} {x y : Result} (h : resultAgree rel x y)
    (hrel : ∀ s u, rel s u → rel' s u) : resultAgree rel' x y := by
  rcases resultAgree_cases h with ⟨s, u, rfl, rfl, hsu⟩ | ⟨f, rfl, rfl⟩ | ⟨r, rfl, rfl⟩
  · exact hrel s u hsu
  · exact Eq.refl f
  · exact Eq.refl r

/-- A relation that every step keeps is kept by every run. -/
theorem run_agree {rel : State → State → Prop} (hstep : ∀ s u, rel s u → resultAgree rel (step s) (step u)) (k : Nat)
    {s u : State} (h : rel s u) : resultAgree rel (core.run k s) (core.run k u) := by
  induction k generalizing s u with
  | zero => exact h
  | succ k ih =>
    have hcore : core.step = step := rfl
    rcases resultAgree_cases (hstep s u h) with ⟨s', u', hs, hu, hsu⟩ | ⟨f, hs, hu⟩ | ⟨r, hs, hu⟩ <;>
      simp only [Host.Core.run, hcore, hs, hu]
    · exact ih hsu
    · exact Eq.refl f
    · exact Eq.refl r

/-! Agreement at a phase that is known. -/

/-- What the host and the sink can see agrees. -/
structure SeenAgree (s u : State) : Prop where
  phase_eq : s.phase = u.phase
  status_eq : s.status = u.status
  out_eq : s.out = u.out
  host_eq : s.host = u.host
  msgIn_eq : s.msgIn = u.msgIn
  sink_eq : s.sink = u.sink
  reads_eq : s.statusReads = u.statusReads
  capacity_eq : s.msgCapacity = u.msgCapacity

/-- `LiveAgree` in a phase that is known: only the registers live in it have to be given. -/
structure LiveAt (phase : BitVec 4) (s u : State) : Prop extends SeenAgree s u where
  phase_is : s.phase = phase
  alg_eq : 1 ≤ phase.toNat ∧ phase.toNat ≤ 9 → s.alg = u.alg := by exact fun h => absurd h (by decide)
  inv_eq : phase = Phase.check → s.inv = u.inv := by exact fun h => absurd h (by decide)
  message_eq : phase = Phase.check ∧ s.inv = false ∨ phase = Phase.pad → s.msg = u.msg ∧ s.len = u.len := by
    exact fun h => absurd (h.imp_left And.left) (by decide)
  buffer_eq : 3 ≤ phase.toNat ∧ phase.toNat ≤ 8 → s.p = u.p ∧ s.n = u.n := by exact fun h => absurd h (by decide)
  block_eq : 4 ≤ phase.toNat ∧ phase.toNat ≤ 8 → s.blk = u.blk := by exact fun h => absurd h (by decide)
  acc_agree : 4 ≤ phase.toNat ∧ phase.toNat ≤ 9 → accAgree (registerCount s.alg) s.acc u.acc := by
    exact fun h => absurd h (by decide)
  expand_agree : phase = Phase.expand → s.t = u.t ∧ scheduleAgree s.t s.w u.w := by exact fun h => absurd h (by decide)
  schedule_agree : phase = Phase.initWs ∨ phase = Phase.round → scheduleAgree (scheduleLength s.alg) s.w u.w := by
    exact fun h => absurd h (by decide)
  round_eq : phase = Phase.round → s.i = u.i := by exact fun h => absurd h (by decide)
  regs_agree : phase = Phase.round ∨ phase = Phase.fold → regsAgree s.alg s.regs u.regs := by
    exact fun h => absurd h (by decide)

section
variable {phase : BitVec 4} {s u : State}

theorem LiveAgree.liveAt (h : LiveAgree s u) (hp : s.phase = phase) : LiveAt phase s u := by
  subst hp
  exact { h with phase_is := rfl }

theorem LiveAt.liveAgree (h : LiveAt phase s u) : LiveAgree s u := by
  obtain rfl := h.phase_is
  exact { h with }

theorem LiveAgree.seen (h : LiveAgree s u) : SeenAgree s u :=
  (h.liveAt rfl).toSeenAgree

/-- In IDLE, DONE and ERROR no register of the engine is live. -/
theorem SeenAgree.rest (h : SeenAgree s u) (hp : s.phase = Phase.idle ∨ s.phase = Phase.done ∨ s.phase = Phase.error) :
    LiveAgree s u := by
  rcases hp with hp | hp | hp <;> exact LiveAt.liveAgree { h with phase_is := hp }

/-- What is live in every phase from LOAD_BLOCK to FOLD. -/
structure BlockAgree (s u : State) : Prop extends SeenAgree s u where
  alg_eq : s.alg = u.alg
  buffer_eq : s.p = u.p ∧ s.n = u.n
  block_eq : s.blk = u.blk
  acc_agree : accAgree (registerCount s.alg) s.acc u.acc

theorem LiveAt.block (h : LiveAt phase s u) (hb : 4 ≤ phase.toNat ∧ phase.toNat ≤ 8) : BlockAgree s u :=
  { h.toSeenAgree with
    alg_eq := h.alg_eq (by omega)
    buffer_eq := h.buffer_eq (by omega)
    block_eq := h.block_eq (by omega)
    acc_agree := h.acc_agree (by omega) }

/-- In a phase from LOAD_BLOCK to FOLD only the schedule, its index, the round index and the working registers remain to be
given. -/
theorem BlockAgree.liveAgree (h : BlockAgree s u) (hp : s.phase = phase) (hb : 4 ≤ phase.toNat ∧ phase.toNat ≤ 8)
    (expand_agree : phase = Phase.expand → s.t = u.t ∧ scheduleAgree s.t s.w u.w := by exact fun h => absurd h (by decide))
    (schedule_agree : phase = Phase.initWs ∨ phase = Phase.round → scheduleAgree (scheduleLength s.alg) s.w u.w := by
      exact fun h => absurd h (by decide))
    (round_eq : phase = Phase.round → s.i = u.i := by exact fun h => absurd h (by decide))
    (regs_agree : phase = Phase.round ∨ phase = Phase.fold → regsAgree s.alg s.regs u.regs := by
      exact fun h => absurd h (by decide)) : LiveAgree s u := by
  have hcheck : phase ≠ Phase.check := by
    rintro rfl
    exact absurd hb (by decide)
  have hpad : phase ≠ Phase.pad := by
    rintro rfl
    exact absurd hb (by decide)
  exact LiveAt.liveAgree
    { h.toSeenAgree with
      phase_is := hp
      alg_eq := fun _ => h.alg_eq
      inv_eq := fun hc => absurd hc hcheck
      message_eq := fun hm => hm.elim (fun hc => absurd hc.1 hcheck) fun hc => absurd hc hpad
      buffer_eq := fun _ => h.buffer_eq
      block_eq := fun _ => h.block_eq
      acc_agree := fun _ => h.acc_agree
      expand_agree, schedule_agree, round_eq, regs_agree }

/-! The shared operations. -/

theorem raise_agree (x : Exception) (h : SeenAgree s u) : LiveAgree (raise x s) (raise x u) :=
  SeenAgree.rest { h with phase_eq := rfl, status_eq := congrArg (statusFailed x) h.status_eq } (.inr (.inr rfl))

theorem beginComputation_agree (alg : Alg) (inv : Bool) (h : SeenAgree s u) :
    LiveAgree (beginComputation alg inv s) (beginComputation alg inv u) :=
  LiveAt.liveAgree (phase := Phase.check)
    { h with
      phase_eq := rfl
      status_eq := rfl
      phase_is := rfl
      alg_eq := fun _ => rfl
      inv_eq := fun _ => rfl
      message_eq := by
        rintro (⟨-, rfl : inv = false⟩ | hpad)
        · exact ⟨h.msgIn_eq, congrArg List.length h.msgIn_eq⟩
        · exact absurd hpad (by decide) }

theorem onCommand_agree {rel : State → State → Prop} {x y : Result} (h : SeenAgree s u) (hxy : resultAgree rel x y) :
    resultAgree rel (onCommand s x) (onCommand u y) := by
  unfold onCommand
  rw [← h.phase_eq]
  split
  · exact hxy
  · split
    · exact Eq.refl Fault.reservedPhase
    · exact Eq.refl Refusal.commandWhileBusy

theorem startCommand_agree (alg : Alg) (inv : Bool) (h : SeenAgree s u) :
    resultAgree LiveAgree (startCommand alg inv s) (startCommand alg inv u) := by
  have hcap : overCapacity s = overCapacity u := by
    rw [overCapacity, overCapacity, h.msgIn_eq, h.capacity_eq]
  refine onCommand_agree h ?_
  rw [← hcap]
  split
  · exact Eq.refl Refusal.messageOverCapacity
  · exact beginComputation_agree alg inv h

/-- Whatever the command word, the command's outcome depends on no register of the engine but PHASE and STATUS. -/
theorem command_agree (c : Word32) (h : SeenAgree s u) :
    resultAgree LiveAgree (exec (decodeCmd c) s) (exec (decodeCmd c) u) := by
  rcases decodeCmd_cases c with ⟨-, hd⟩ | ⟨-, hd⟩ | ⟨-, hd⟩ | ⟨-, hd⟩ | ⟨-, hd⟩ <;> rw [hd]
  · exact startCommand_agree .sha1 false h
  · exact startCommand_agree .sha1 true h
  · exact startCommand_agree .sha256 false h
  · exact startCommand_agree .sha256 true h
  · exact onCommand_agree h (raise_agree .illegalCommand h)

/-- The sink's answer is the same for the same sink: both emit or both hold. -/
theorem emitOrHold_agree {e e' : Event} {t t' : State} (h : LiveAgree s u) (he : e = e') (ht : LiveAgree t t') :
    resultAgree LiveAgree (emitOrHold e t s) (emitOrHold e' t' u) := by
  have hsink : s.sink.answered = u.sink.answered := congrArg Sink.answered h.sink_eq
  cases ha : s.sink.accepts with
  | true =>
    rw [emitOrHold_accepted ha, emitOrHold_accepted (h.sink_eq ▸ ha)]
    exact { ht with out_eq := congrArg₂ (fun out e => out ++ [e]) h.out_eq he, sink_eq := hsink }
  | false =>
    rw [emitOrHold_held ha, emitOrHold_held (h.sink_eq ▸ ha)]
    exact { h with sink_eq := hsink }

end

/-! What the micro-operations read. -/

theorem regsAgree.symm {alg : Alg} {r q : Regs} (h : regsAgree alg r q) : regsAgree alg q r := by
  cases alg
  · exact Eq.symm (α := List Word32) h
  · exact Eq.symm (α := Regs) h

/-- Agreement of ACC is agreement of ACC as registers. -/
theorem accAgree_iff_regsAgree (alg : Alg) {x y : Vector Word32 8} :
    accAgree (registerCount alg) x y ↔ regsAgree alg (accRegs x) (accRegs y) := by
  constructor
  · intro h
    cases alg with
    | sha1 => exact sha1Snapshot_eq_iff.2 ⟨h 0 (by decide) (by decide), h 1 (by decide) (by decide), h 2 (by decide) (by decide),
        h 3 (by decide) (by decide), h 4 (by decide) (by decide)⟩
    | sha256 =>
      have hxy : x = y := Vector.ext fun j hj => h j hj hj
      exact congrArg accRegs hxy
  · intro h j hj hlt
    cases alg with
    | sha1 =>
      obtain ⟨h0, h1, h2, h3, h4⟩ := sha1Snapshot_eq_iff.1 h
      change j < 5 at hlt
      interval_cases j
      exacts [h0, h1, h2, h3, h4]
    | sha256 =>
      obtain ⟨h0, h1, h2, h3, h4, h5, h6, h7⟩ := Regs.mk.inj h
      interval_cases j
      exacts [h0, h1, h2, h3, h4, h5, h6, h7]

theorem Memory.length_readWords {m : Memory} {a count : Nat} {ws : List Word32} (h : m.readWords a count = some ws) :
    ws.length = count := by
  induction count generalizing a ws with
  | zero =>
    cases h
    rfl
  | succ count ih =>
    unfold Memory.readWords at h
    split at h
    · rename_i hrest
      cases h
      rw [List.length_cons, ih hrest]
    · cases h

theorem scheduleAgree_setFirstWords (x y : Vector Word32 80) (ws : List Word32) :
    scheduleAgree ws.length (setFirstWords x ws) (setFirstWords y ws) := by
  intro j hj hlt
  rw [setFirstWords_get, setFirstWords_get, List.getElem?_eq_getElem hlt, Option.getD_some, Option.getD_some]

theorem scheduleAgree.set {t : Nat} {x y : Vector Word32 80} (h : scheduleAgree t x y) (v : Word32) (ht : t < 80) :
    scheduleAgree (t + 1) (x.set t v ht) (y.set t v ht) := by
  intro j hj hlt
  by_cases hjt : t = j
  · subst hjt
    rw [Vector.getElem_set_self, Vector.getElem_set_self]
  · rw [Vector.getElem_set_ne _ _ hjt, Vector.getElem_set_ne _ _ hjt, h j hj (by omega)]

/-- The next word of the schedule of either algorithm (R141, R143). -/
def scheduleWord (alg : Alg) (w : Vector Word32 80) (t : Nat) (h : 16 ≤ t ∧ t < scheduleLength alg) : Word32 :=
  match alg with
  | .sha1 => sha1ScheduleWord w t h
  | .sha256 => sha256ScheduleWord w t h

theorem sha1ScheduleWord_agree {t : Nat} {x y : Vector Word32 80} (h : scheduleAgree t x y) (ht : 16 ≤ t ∧ t < 80) :
    sha1ScheduleWord x t ht = sha1ScheduleWord y t ht := by
  rw [sha1ScheduleWord, sha1ScheduleWord, h _ _ (by omega), h _ _ (by omega), h _ _ (by omega), h _ _ (by omega)]

theorem sha256ScheduleWord_agree {t : Nat} {x y : Vector Word32 80} (h : scheduleAgree t x y) (ht : 16 ≤ t ∧ t < 64) :
    sha256ScheduleWord x t ht = sha256ScheduleWord y t ht := by
  rw [sha256ScheduleWord, sha256ScheduleWord, h _ _ (by omega), h _ _ (by omega), h _ _ (by omega), h _ _ (by omega)]

/-- The next word is made of words below it. -/
theorem scheduleWord_agree {alg : Alg} {t : Nat} {x y : Vector Word32 80} (h : scheduleAgree t x y)
    (ht : 16 ≤ t ∧ t < scheduleLength alg) : scheduleWord alg x t ht = scheduleWord alg y t ht := by
  cases alg
  · exact sha1ScheduleWord_agree h ht
  · exact sha256ScheduleWord_agree h ht

/-! The micro-operations that differ by algorithm, for either of them. -/

section
variable (alg : Alg) (s : State)

theorem exec_initAcc :
    ∃ acc, exec (decodePhase alg Phase.initAcc) s = .next { s with acc := acc, blk := 0, phase := Phase.loadBlock } ∧
      regsAgree alg (accRegs acc) (referenceInit alg) := by
  cases alg <;> exact ⟨_, rfl, rfl⟩

theorem exec_expand :
    exec (decodePhase alg Phase.expand) s =
      if h : 16 ≤ s.t ∧ s.t < scheduleLength alg then
        .next { s with
          w := s.w.set s.t (scheduleWord alg s.w s.t h) (Nat.lt_of_lt_of_le h.2 (scheduleLength_bounds alg).2)
          t := s.t + 1
          phase := if s.t + 1 = scheduleLength alg then Phase.initWs else Phase.expand }
      else .fault .scheduleIndexOutOfRange := by
  cases alg <;> rfl

theorem exec_initWs :
    ∃ regs, exec (decodePhase alg Phase.initWs) s = .next { s with regs := regs, i := 0, phase := Phase.round } ∧
      regsAgree alg regs (accRegs s.acc) := by
  cases alg <;> exact ⟨_, rfl, rfl⟩

theorem exec_round :
    exec (decodePhase alg Phase.round) s =
      if s.i < roundCount alg then
        emitOrHold (.round (s.i + 1) (snapshot alg (roundRegs alg s.i (s.w[s.i]?.getD 0) s.regs)))
          { s with
            regs := roundRegs alg s.i (s.w[s.i]?.getD 0) s.regs
            i := s.i + 1
            phase := if s.i + 1 = roundCount alg then Phase.fold else Phase.round } s
      else .fault .roundIndexOutOfRange := by
  by_cases hi : s.i < roundCount alg
  · have h80 : s.i < 80 := Nat.lt_of_lt_of_le hi (by cases alg <;> decide)
    rw [if_pos hi, Vector.getElem?_eq_getElem h80, Option.getD_some]
    cases alg with
    | sha1 => exact execSha1Round_offers h80
    | sha256 =>
      rw [roundRegs, List.getD_eq_getElem?_getD, kTable_get? hi]
      exact execSha256Round_offers hi
  · rw [if_neg hi]
    cases alg <;> exact dif_neg hi

theorem exec_fold :
    ∃ acc, exec (decodePhase alg Phase.fold) s = .next { s with
        acc := acc, blk := s.blk + 1, phase := if s.blk + 1 = s.n then Phase.finalize else Phase.loadBlock } ∧
      regsAgree alg (accRegs acc) (addRegs (accRegs s.acc) s.regs) := by
  cases alg <;> exact ⟨_, rfl, rfl⟩

theorem exec_finalize :
    exec (decodePhase alg Phase.finalize) s =
      emitOrHold (.digest ((snapshot alg (accRegs s.acc)).flatMap hex8))
        { s with status := statusFinished alg, phase := Phase.done } s := by
  cases alg <;> rfl

end

/-! The micro-operation of each phase. -/

section
variable {s u : State}

theorem execCheck_agree (h : LiveAt Phase.check s u) : resultAgree LiveAgree (execCheck s) (execCheck u) := by
  have hinv := h.inv_eq rfl
  cases hi : s.inv with
  | true =>
    rw [execCheck_raises hi, execCheck_raises (hinv ▸ hi)]
    exact raise_agree .invalidInput h.toSeenAgree
  | false =>
    rw [execCheck_proceeds hi, execCheck_proceeds (hinv ▸ hi)]
    exact LiveAt.liveAgree (phase := Phase.pad)
      { h.toSeenAgree with
        phase_eq := rfl
        phase_is := rfl
        alg_eq := fun _ => h.alg_eq (by decide)
        message_eq := fun _ => h.message_eq (.inl ⟨rfl, hi⟩) }

theorem execPad_agree (h : LiveAt Phase.pad s u) : resultAgree LiveAgree (execPad s) (execPad u) := by
  obtain ⟨hmsg, hlen⟩ := h.message_eq (.inr rfl)
  have hbytes : messageBytes s = messageBytes u := by rw [messageBytes, messageBytes, hmsg, hlen]
  rw [execPad, execPad, ← hbytes, ← hlen]
  split
  · exact raise_agree .lengthOverflow h.toSeenAgree
  · cases messageBytes s with
    | none => exact Eq.refl Fault.messageReadOutOfRange
    | some bytes =>
      exact LiveAt.liveAgree (phase := Phase.initAcc)
        { h.toSeenAgree with
          phase_eq := rfl
          phase_is := rfl
          alg_eq := fun _ => h.alg_eq (by decide)
          buffer_eq := fun _ => ⟨rfl, rfl⟩ }

theorem exec_initAcc_agree (h : LiveAt Phase.initAcc s u) :
    resultAgree LiveAgree (exec (decodePhase s.alg Phase.initAcc) s) (exec (decodePhase s.alg Phase.initAcc) u) := by
  obtain ⟨x, hs, hx⟩ := exec_initAcc s.alg s
  obtain ⟨y, hu, hy⟩ := exec_initAcc s.alg u
  rw [hs, hu]
  exact BlockAgree.liveAgree (phase := Phase.loadBlock)
    { h.toSeenAgree with
      phase_eq := rfl
      alg_eq := h.alg_eq (by decide)
      buffer_eq := h.buffer_eq (by decide)
      block_eq := rfl
      acc_agree := (accAgree_iff_regsAgree s.alg).2 (hx.trans hy.symm) } rfl (by decide)

theorem execLoadBlock_agree (h : LiveAt Phase.loadBlock s u) : resultAgree LiveAgree (execLoadBlock s) (execLoadBlock u) := by
  have hb := h.block (by decide)
  have hread : s.p.readWords (64 * s.blk) 16 = u.p.readWords (64 * u.blk) 16 := by rw [hb.buffer_eq.1, hb.block_eq]
  rw [execLoadBlock, execLoadBlock, ← hread]
  cases hw : s.p.readWords (64 * s.blk) 16 with
  | none => exact Eq.refl Fault.paddedReadOutOfRange
  | some words =>
    refine BlockAgree.liveAgree (phase := Phase.expand) { hb with phase_eq := rfl } rfl (by decide)
      (expand_agree := fun _ => ⟨rfl, ?_⟩)
    have hagree := scheduleAgree_setFirstWords s.w u.w words
    rwa [Memory.length_readWords hw] at hagree

theorem exec_expand_agree (h : LiveAt Phase.expand s u) :
    resultAgree LiveAgree (exec (decodePhase s.alg Phase.expand) s) (exec (decodePhase s.alg Phase.expand) u) := by
  have hb := h.block (by decide)
  obtain ⟨ht, hw⟩ := h.expand_agree rfl
  simp only [exec_expand, ← ht]
  split
  · rename_i hr
    rw [← scheduleWord_agree hw hr]
    have hnext := hw.set (scheduleWord s.alg s.w s.t hr) (Nat.lt_of_lt_of_le hr.2 (scheduleLength_bounds s.alg).2)
    by_cases hlast : s.t + 1 = scheduleLength s.alg
    · rw [hlast] at hnext
      simp only [if_pos hlast]
      exact BlockAgree.liveAgree (phase := Phase.initWs) { hb with phase_eq := rfl } rfl (by decide)
        (schedule_agree := fun _ => hnext)
    · simp only [if_neg hlast]
      exact BlockAgree.liveAgree (phase := Phase.expand) { hb with phase_eq := rfl } rfl (by decide)
        (expand_agree := fun _ => ⟨rfl, hnext⟩)
  · exact Eq.refl Fault.scheduleIndexOutOfRange

theorem exec_initWs_agree (h : LiveAt Phase.initWs s u) :
    resultAgree LiveAgree (exec (decodePhase s.alg Phase.initWs) s) (exec (decodePhase s.alg Phase.initWs) u) := by
  have hb := h.block (by decide)
  obtain ⟨r, hs, hr⟩ := exec_initWs s.alg s
  obtain ⟨q, hu, hq⟩ := exec_initWs s.alg u
  rw [hs, hu]
  have hacc := (accAgree_iff_regsAgree s.alg).1 hb.acc_agree
  exact BlockAgree.liveAgree (phase := Phase.round) { hb with phase_eq := rfl } rfl (by decide)
    (schedule_agree := fun _ => h.schedule_agree (.inl rfl))
    (round_eq := fun _ => rfl)
    (regs_agree := fun _ => (hr.trans hacc).trans hq.symm)

theorem exec_round_agree (h : LiveAt Phase.round s u) :
    resultAgree LiveAgree (exec (decodePhase s.alg Phase.round) s) (exec (decodePhase s.alg Phase.round) u) := by
  have hb := h.block (by decide)
  have hregs := h.regs_agree (.inl rfl)
  have hw := h.schedule_agree (.inr rfl)
  rw [exec_round, exec_round, ← h.round_eq rfl]
  split
  · rename_i hi
    have h80 : s.i < 80 := Nat.lt_of_lt_of_le hi (by cases s.alg <;> decide)
    have hword : u.w[s.i]?.getD 0 = s.w[s.i]?.getD 0 := by
      rw [Vector.getElem?_eq_getElem h80, Vector.getElem?_eq_getElem h80, hw s.i h80 (roundCount_eq_scheduleLength s.alg ▸ hi)]
    have hround := hregs.round s.i (s.w[s.i]?.getD 0)
    rw [hword]
    refine emitOrHold_agree h.liveAgree (by rw [hround.snapshot_eq]) ?_
    by_cases hlast : s.i + 1 = roundCount s.alg
    · simp only [if_pos hlast]
      exact BlockAgree.liveAgree (phase := Phase.fold) { hb with phase_eq := rfl } rfl (by decide)
        (regs_agree := fun _ => hround)
    · simp only [if_neg hlast]
      exact BlockAgree.liveAgree (phase := Phase.round) { hb with phase_eq := rfl } rfl (by decide)
        (schedule_agree := fun _ => hw)
        (round_eq := fun _ => rfl)
        (regs_agree := fun _ => hround)
  · exact Eq.refl Fault.roundIndexOutOfRange

theorem exec_fold_agree (h : LiveAt Phase.fold s u) :
    resultAgree LiveAgree (exec (decodePhase s.alg Phase.fold) s) (exec (decodePhase s.alg Phase.fold) u) := by
  have hb := h.block (by decide)
  obtain ⟨x, hs, hx⟩ := exec_fold s.alg s
  obtain ⟨y, hu, hy⟩ := exec_fold s.alg u
  have hsum := ((accAgree_iff_regsAgree s.alg).1 hb.acc_agree).add (h.regs_agree (.inr rfl))
  have hacc := (accAgree_iff_regsAgree s.alg).2 ((hx.trans hsum).trans hy.symm)
  rw [hs, hu, ← hb.block_eq, ← hb.buffer_eq.2]
  by_cases hlast : s.blk + 1 = s.n
  · simp only [if_pos hlast]
    exact LiveAt.liveAgree (phase := Phase.finalize)
      { hb.toSeenAgree with
        phase_eq := rfl
        phase_is := rfl
        alg_eq := fun _ => hb.alg_eq
        acc_agree := fun _ => hacc }
  · simp only [if_neg hlast]
    exact BlockAgree.liveAgree (phase := Phase.loadBlock)
      { hb with phase_eq := rfl, buffer_eq := ⟨hb.buffer_eq.1, rfl⟩, block_eq := rfl, acc_agree := hacc } rfl (by decide)

theorem exec_finalize_agree (h : LiveAt Phase.finalize s u) :
    resultAgree LiveAgree (exec (decodePhase s.alg Phase.finalize) s) (exec (decodePhase s.alg Phase.finalize) u) := by
  have hacc := (accAgree_iff_regsAgree s.alg).1 (h.acc_agree (by decide))
  rw [exec_finalize, exec_finalize]
  exact emitOrHold_agree h.liveAgree (by rw [hacc.snapshot_eq])
    (SeenAgree.rest { h.toSeenAgree with phase_eq := rfl, status_eq := rfl } (.inr (.inl rfl)))

/-- The engine's turn, whatever the phase. -/
theorem microOperation_agree (h : LiveAgree s u) (hp : s.phase.toNat < 12) :
    resultAgree LiveAgree (exec (decodePhase s.alg s.phase) s) (exec (decodePhase u.alg u.phase) u) := by
  rw [← h.phase_eq]
  rcases phase_cases hp with hp | hp | hp | hp | hp | hp | hp | hp | hp | hp | hp | hp <;> rw [hp]
  · exact h
  · exact execCheck_agree (h.liveAt hp)
  · exact execPad_agree (h.liveAt hp)
  · rw [← h.alg_eq (hp ▸ by decide)]
    exact exec_initAcc_agree (h.liveAt hp)
  · exact execLoadBlock_agree (h.liveAt hp)
  · rw [← h.alg_eq (hp ▸ by decide)]
    exact exec_expand_agree (h.liveAt hp)
  · rw [← h.alg_eq (hp ▸ by decide)]
    exact exec_initWs_agree (h.liveAt hp)
  · rw [← h.alg_eq (hp ▸ by decide)]
    exact exec_round_agree (h.liveAt hp)
  · rw [← h.alg_eq (hp ▸ by decide)]
    exact exec_fold_agree (h.liveAt hp)
  · rw [← h.alg_eq (hp ▸ by decide)]
    exact exec_finalize_agree (h.liveAt hp)
  · exact h
  · exact h

/-! The step. -/

theorem meaninglessState_agree (h : SeenAgree s u) : meaninglessState s = meaninglessState u := by
  rw [meaninglessState, meaninglessState, h.phase_eq, h.status_eq]

/-- On the engine's turn the host's turns are the only thing the step changes before the micro-operation. -/
theorem step_engine_agree (h : LiveAgree s u) (ht : engineTurn s) (hm : meaninglessState s = none) :
    resultAgree LiveAgree (step s) (step u) := by
  have htu : engineTurn u := by rwa [engineTurn, ← h.host_eq]
  rw [step_engine ht hm, step_engine htu (meaninglessState_agree h.seen ▸ hm)]
  have htail : LiveAgree { s with host := s.host.tail } { u with host := u.host.tail } :=
    { h with host_eq := congrArg List.tail h.host_eq }
  exact microOperation_agree htail (meaninglessState_range hm).1

/-- A read or a wait shows no register of the engine but STATUS. -/
theorem step_read_agree {rest : List Turn} (h : LiveAgree s u) (hh : s.host = .read :: rest ∨ s.host = .wait :: rest)
    (hm : meaninglessState s = none) : resultAgree LiveAgree (step s) (step u) := by
  have hread : ∃ turns, presented s = (.statusRead, { s with host := turns }) ∧
      presented u = (.statusRead, { u with host := turns }) := by
    rcases hh with hh | hh <;> simp only [presented, ← h.host_eq, hh, ← h.status_eq] <;> exact ⟨_, rfl, rfl⟩
  obtain ⟨turns, hs, hu⟩ := hread
  have hreset : ∀ rest, s.host ≠ .reset :: rest := by rcases hh with hh | hh <;> simp [hh]
  rw [step_no_reset hreset, step_no_reset (h.host_eq ▸ hreset), ← meaninglessState_agree h.seen, hm, hs, hu]
  have hnext : LiveAgree { s with host := turns, statusReads := s.statusReads ++ [statusWord s.status] }
      { u with host := turns, statusReads := u.statusReads ++ [statusWord u.status] } :=
    { h with host_eq := rfl, reads_eq := congrArg₂ (fun reads status => reads ++ [statusWord status]) h.reads_eq h.status_eq }
  exact hnext

theorem step_write_agree {c : Word32} {msg : List Byte} {rest : List Turn} (h : LiveAgree s u) (hh : s.host = .write c msg :: rest)
    (hm : meaninglessState s = none) : resultAgree LiveAgree (step s) (step u) := by
  rw [step_write hh hm, step_write (h.host_eq ▸ hh) (meaninglessState_agree h.seen ▸ hm)]
  exact command_agree c { h.seen with host_eq := rfl, msgIn_eq := rfl }

/-- A reset takes every register of the engine to the reset's value, and none of them is live in IDLE. -/
theorem step_reset_agree {rest : List Turn} (h : LiveAgree s u) (hh : s.host = .reset :: rest) :
    resultAgree LiveAgree (step s) (step u) := by
  rw [step_reset hh, step_reset (h.host_eq ▸ hh)]
  exact SeenAgree.rest { h.seen with phase_eq := rfl, status_eq := rfl, host_eq := rfl } (.inl rfl)

/-- Whoever moves, a step from states that agree on the live registers gives the same outcome, and next states that agree again. -/
theorem step_liveAgree (h : LiveAgree s u) : resultAgree LiveAgree (step s) (step u) := by
  by_cases hreset : ∃ rest, s.host = .reset :: rest
  · obtain ⟨rest, hh⟩ := hreset
    exact step_reset_agree h hh
  · have hreset : ∀ rest, s.host ≠ .reset :: rest := fun rest hh => hreset ⟨rest, hh⟩
    cases hm : meaninglessState s with
    | some fault =>
      rw [step_no_reset hreset, step_no_reset (h.host_eq ▸ hreset), ← meaninglessState_agree h.seen, hm]
      exact Eq.refl fault
    | none =>
      cases hh : s.host with
      | nil => exact step_engine_agree h (.inl hh) hm
      | cons turn rest =>
        cases turn with
        | engine => exact step_engine_agree h (.inr ⟨rest, hh⟩) hm
        | write c msg => exact step_write_agree h hh hm
        | read => exact step_read_agree h (.inl hh) hm
        | wait => exact step_read_agree h (.inr hh) hm
        | reset => exact absurd hh (hreset rest)

end

/-- Settles O59: in IDLE, DONE and ERROR no register of the engine is live, and every run keeps the agreement. -/
theorem noStateCarriesOver : Obligations.NoStateCarriesOver := by
  rintro k s u hp ⟨alg, inv, msg, len, p, n, blk, t, i, w, regs, acc, rfl⟩
  have hstart : LiveAgree s { s with
      alg := alg, inv := inv, msg := msg, len := len, p := p, n := n, blk := blk, t := t, i := i, w := w, regs := regs, acc := acc } :=
    SeenAgree.rest ⟨rfl, rfl, rfl, rfl, rfl, rfl, rfl, rfl⟩ hp
  exact (run_agree (fun _ _ => step_liveAgree) k hstart).mono fun x y h => ⟨h.out_eq, h.status_eq, h.phase_eq, h.reads_eq⟩

end Sys2Proof.Machine
end

section
/-! PROOF. The phases without an engine step (R251, R252, R265): a turn there that is neither a command write nor a reset touches
nothing of the engine, and in ERROR the two commands and the reset are what decides the error. -/

namespace Sys2Proof

/-- A word for which both mask equations of R74 fail is ILLEGAL. -/
theorem decodeCmd_illegal_of_mask {c : Word32} (h1 : c &&& 0xFFFFFFDF#32 ≠ 0x00000001#32)
    (h256 : c &&& 0xFFFFFFDF#32 ≠ 0x00000011#32) : decodeCmd c = .illegal c := by
  refine if_neg fun hfields => ?_
  have hlegal := (legalCommand_iff c).2 hfields
  simp only [legalCommand, Bool.or_eq_true, beq_iff_eq] at hlegal
  exact hlegal.elim h1 h256

end Sys2Proof

namespace Sys2Proof.Machine

section
variable {s u : State}

/-- The micro-operations of IDLE, DONE and ERROR leave the whole state as it is (R223, R224, R251). -/
theorem exec_rest (alg : Alg) (hp : s.phase = Phase.idle ∨ s.phase = Phase.done ∨ s.phase = Phase.error) :
    exec (decodePhase alg s.phase) s = .next s := by
  rcases hp with hp | hp | hp <;> rw [hp] <;> rfl

/-- Where the engine takes no step, a turn that is neither a command write nor a reset uses up the host's turn and at most records
what the host read; it always has a next state (R265). -/
theorem step_rest (hp : s.phase = Phase.idle ∨ s.phase = Phase.done ∨ s.phase = Phase.error) (hm : meaninglessState s = none)
    (hw : ∀ c msg rest, s.host ≠ .write c msg :: rest) (hr : ∀ rest, s.host ≠ .reset :: rest) :
    ∃ turns reads, step s = .next { s with host := turns, statusReads := reads } := by
  have hengine (ht : engineTurn s) : ∃ turns reads, step s = .next { s with host := turns, statusReads := reads } :=
    ⟨s.host.tail, s.statusReads, (step_engine ht hm).trans (exec_rest (s := { s with host := s.host.tail }) s.alg hp)⟩
  cases hh : s.host with
  | nil => exact hengine (.inl hh)
  | cons turn rest =>
    cases turn with
    | engine => exact hengine (.inr ⟨rest, hh⟩)
    | read => exact (step_read (.inl hh) hm).imp fun _ hs => ⟨_, hs⟩
    | wait => exact (step_read (.inr hh) hm).imp fun _ hs => ⟨_, hs⟩
    | write c msg => exact absurd hh (hw c msg rest)
    | reset => exact absurd hh (hr rest)

/-- A START that is accepted begins a computation, whichever of the two it is (R101, R102). -/
theorem exec_start_next {c : Word32}
    (hc : c &&& 0xFFFFFFDF#32 = 0x00000001#32 ∨ c &&& 0xFFFFFFDF#32 = 0x00000011#32) (h : exec (decodeCmd c) s = .next u) :
    ∃ alg inv, u = beginComputation alg inv s := by
  rcases hc with hc | hc
  · rw [Except.ok.inj (decode_startSha1_of_mask hc)] at h
    obtain ⟨-, -, hu⟩ := startCommand_next h
    exact ⟨.sha1, _, hu⟩
  · rw [Except.ok.inj (decode_startSha256_of_mask hc)] at h
    obtain ⟨-, -, hu⟩ := startCommand_next h
    exact ⟨.sha256, _, hu⟩

end

/-- Settles O40: the three phases are those where the engine takes no step. -/
theorem noWakeUpButCommandOrReset : Obligations.NoWakeUpButCommandOrReset := by
  intro s u hp hw hr h
  obtain ⟨turns, reads, hs⟩ := step_rest hp (meaninglessState_of_next h hr) hw hr
  rw [hs] at h
  cases h
  rfl

/-- Settles O42: an illegal command is the error entry again, which overwrites ERRCODE and reads none of it; a START and a reset write
STATUS anew; every other turn finds the engine at rest. -/
theorem errorsDoNotNest : Obligations.ErrorsDoNotNest := by
  intro s hp _ herrcode
  have hm : meaninglessState s = none := meaninglessState_none (hp ▸ by decide) herrcode
  refine ⟨fun c msg rest hh h1 h256 => ?_, fun c msg rest u hh hc h => ?_, fun rest hh => ?_, fun hw hr => ?_⟩
  · have hraise := illegalCommandRaises.2 { s with host := rest, msgIn := msg } c (.inr (.inr hp))
    rw [← decodeCmd_illegal_of_mask h1 h256, ← step_write hh hm] at hraise
    exact ⟨_, hraise, rfl, rfl, rfl⟩
  · rw [step_write hh hm] at h
    obtain ⟨alg, inv, rfl⟩ := exec_start_next hc h
    exact ⟨rfl, rfl, rfl⟩
  · exact ⟨_, step_reset hh, rfl, rfl, rfl⟩
  · obtain ⟨turns, reads, hs⟩ := step_rest (.inr (.inr hp)) hm hw hr
    exact ⟨_, hs, hp, rfl⟩

end Sys2Proof.Machine
end

section
/-! PROOF. The encoding: decoder and encoder undo each other, and the words of the specification (R70 to R76). -/

namespace Sys2Proof

/-! Micro-operation words (R75). -/

theorem decode_uopWord (alg : Alg) (phase : BitVec 4) : decode (.uop (uopWord alg phase)) = .ok (decodePhase alg phase) :=
  Machine.decodeUop_uopWord alg phase

/-- The codes 0xC to 0xF are the row RESERVED_PHASE (R76). -/
theorem decodePhase_reserved (alg : Alg) {code : BitVec 4} (h : 12 ≤ code.toNat) :
    decodePhase alg code = .reservedPhase alg code := by
  revert h
  cases alg <;> revert code <;> decide

/-- Every row of the table of phase codes is encoded by the word it was read from. -/
theorem encode_decodePhase (alg : Alg) (phase : BitVec 4) :
    encode (decodePhase alg phase) = .uop (uopWord alg phase) ∧ (decodePhase alg phase).wellFormed = true := by
  cases alg <;> revert phase <;> decide

/-- A 1-bit selector and its bit determine each other (R72). -/
theorem Alg.bit_ofBit (b : BitVec 1) : (Alg.ofBit b).bit = b := by
  revert b
  decide

/-- A word whose bits 7:5 are zero is the micro-operation word of its ALG and PHASE fields. -/
theorem eq_uopWord_of_high {u : Byte} (h : u.extractLsb' 5 3 = 0#3) :
    u = uopWord (Alg.ofBit (u.extractLsb' 4 1)) (u.extractLsb' 0 4) := by
  rw [uopWord, Alg.bit_ofBit, ← h]
  exact uopWord_fields u

theorem decodeUop_ok {u : Byte} {i : Instr} (h : decodeUop u = .ok i) :
    ∃ alg phase, u = uopWord alg phase ∧ i = decodePhase alg phase := by
  unfold decodeUop at h
  split at h
  · cases h
    exact ⟨_, _, eq_uopWord_of_high ‹_›, rfl⟩
  · cases h

/-! Command words (R74). -/

theorem decodeCmd_not_legal {c : Word32} (h : legalCommand c = false) : decodeCmd c = .illegal c :=
  if_neg fun hfields => absurd ((legalCommand_iff c).2 hfields) (by simp [h])

/-- Settles O4: a START word carries ALG and INV, an illegal word is its own operand, and a micro-operation word carries ALG and
PHASE. -/
theorem decodeOfEncode : Obligations.DecodeOfEncode := by
  intro i hwf
  cases i with
  | startSha1 inv | startSha256 inv => cases inv <;> rfl
  | illegal c => exact congrArg Except.ok (decodeCmd_not_legal (by simpa [Instr.wellFormed] using hwf))
  | readStatus => rfl
  | reservedPhase alg code =>
    have hcode : 12 ≤ code.toNat := by simpa [Instr.wellFormed] using hwf
    exact (decode_uopWord alg code).trans (congrArg Except.ok (decodePhase_reserved alg hcode))
  | idle alg | check alg | pad alg | loadBlock alg | done alg | error alg => exact decode_uopWord alg _
  | sha1InitAcc | sha1Expand | sha1InitWs | sha1Round | sha1Fold | sha1Finalize => exact decode_uopWord .sha1 _
  | sha256InitAcc | sha256Expand | sha256InitWs | sha256Round | sha256Fold | sha256Finalize => exact decode_uopWord .sha256 _

/-- Settles O5: the four START words, the illegal words, the STATUS read and the words of the phase codes are all there are. -/
theorem encodeOfDecode : Obligations.EncodeOfDecode := by
  intro f i h
  cases f with
  | cmd c =>
    obtain rfl : decodeCmd c = i := Except.ok.inj h
    rcases decodeCmd_cases c with ⟨rfl, hd⟩ | ⟨rfl, hd⟩ | ⟨rfl, hd⟩ | ⟨rfl, hd⟩ | ⟨hc, hd⟩ <;> rw [hd]
    · exact ⟨rfl, rfl⟩
    · exact ⟨rfl, rfl⟩
    · exact ⟨rfl, rfl⟩
    · exact ⟨rfl, rfl⟩
    · exact ⟨rfl, by simp [Instr.wellFormed, hc]⟩
  | statusRead =>
    cases h
    exact ⟨rfl, rfl⟩
  | uop u =>
    obtain ⟨alg, phase, rfl, rfl⟩ := decodeUop_ok h
    exact encode_decodePhase alg phase

/-- Settles O1: each of these is one word, decoded. -/
theorem specWordsDecode : Obligations.SpecWordsDecode :=
  ⟨rfl, rfl, rfl, rfl, rfl, rfl, rfl, rfl, rfl, rfl, rfl, rfl, rfl, rfl, rfl, rfl⟩

theorem uopWord_layout (alg : Alg) (phase : BitVec 4) : (uopWord alg phase).extractLsb' 0 4 = phase ∧
    (uopWord alg phase).extractLsb' 4 1 = alg.bit ∧ (uopWord alg phase).extractLsb' 5 3 = 0#3 := by
  cases alg <;> revert phase <;> decide

end Sys2Proof

namespace Sys2Proof.Machine

/-- On the engine's turn the word presented is the one `(ALG << 4) | PHASE` names (R75). -/
theorem presented_engine {s : State} (h : engineTurn s) : (presented s).1 = .uop (uopWord s.alg s.phase) := by
  rcases h with h | ⟨rest, h⟩ <;> simp only [presented, h]

/-- Settles O3: the layout is that of the word's three fields, the rows of the table are single words, and the reserved codes are the
last row. -/
theorem microOperationWords : Obligations.MicroOperationWords := by
  refine ⟨fun alg phase => ?_, ⟨rfl, rfl⟩, ⟨rfl, rfl⟩, ⟨rfl, rfl⟩, ⟨rfl, rfl⟩, ⟨rfl, rfl⟩, ⟨rfl, rfl⟩, ⟨rfl, rfl⟩, ⟨rfl, rfl⟩,
    ⟨rfl, rfl⟩, ⟨rfl, rfl⟩, ⟨rfl, rfl⟩, ⟨rfl, rfl⟩, fun alg code hcode => ?_, fun s => presented_engine⟩
  · cases alg <;> exact uopWord_layout _ phase
  · rw [decode_uopWord, decodePhase_reserved alg hcode]

end Sys2Proof.Machine
end

section
/-! PROOF. What an instruction can write: one inversion of `exec`, by the registers that are written, and from it the frames, the safety
of ERRCODE and what a step appends to OUT. -/

namespace Sys2Proof.Machine

/-- The instructions that offer the sink an event. -/
def emits (i : Instr) : Prop :=
  i = .sha1Round ∨ i = .sha256Round ∨ i = .sha1Finalize ∨ i = .sha256Finalize

/-- Every next state an instruction can lead to, by the registers it writes. -/
inductive Effect (i : Instr) (s : State) : State → Prop
  | start (alg : Alg) (inv : Bool) (hi : i = .startSha1 inv ∨ i = .startSha256 inv) : Effect i s (beginComputation alg inv s)
  | raise (x : Exception) (hi : (∃ c, i = .illegal c) ∨ (∃ alg, i = .check alg) ∨ ∃ alg, i = .pad alg) :
    Effect i s (raise x s)
  | read (hi : i = .readStatus) : Effect i s { s with statusReads := s.statusReads ++ [statusWord s.status] }
  | rest : Effect i s s
  | proceed (phase : BitVec 4) : Effect i s { s with phase := phase }
  | buffer (alg : Alg) (msg : List Byte) (n : Nat) (phase : BitVec 4) (hi : i = .pad alg) :
    Effect i s { s with p := paddedBuffer msg, n := n, phase := phase }
  | accumulator (acc : Vector Word32 8) (blk : Nat) (phase : BitVec 4)
    (hi : i = .sha1InitAcc ∨ i = .sha256InitAcc ∨ i = .sha1Fold ∨ i = .sha256Fold) :
    Effect i s { s with acc := acc, blk := blk, phase := phase }
  | schedule (w : Vector Word32 80) (t : Nat) (phase : BitVec 4)
    (hi : (∃ alg, i = .loadBlock alg) ∨ i = .sha1Expand ∨ i = .sha256Expand) :
    Effect i s { s with w := w, t := t, phase := phase }
  | registers (regs : Regs) (phase : BitVec 4) (hi : i = .sha1InitWs ∨ i = .sha256InitWs) :
    Effect i s { s with regs := regs, i := 0, phase := phase }
  | round (idx : Nat) (snap : List Word32) (regs : Regs) (phase : BitVec 4) (hi : i = .sha1Round ∨ i = .sha256Round) :
    Effect i s { s with
      regs := regs, i := s.i + 1, phase := phase, out := s.out ++ [.round idx snap], sink := s.sink.answered }
  | digest (d : List Char) (alg : Alg) (hi : i = .sha1Finalize ∨ i = .sha256Finalize) :
    Effect i s { s with
      status := statusFinished alg, phase := Phase.done, out := s.out ++ [.digest d], sink := s.sink.answered }
  | hold (hi : emits i) : Effect i s { s with sink := s.sink.answered }

/-- The codes of the exceptions are 1, 2 and 3 (R240). -/
theorem exceptionCode_range (x : Exception) : 1 ≤ (exceptionCode x).toNat ∧ (exceptionCode x).toNat ≤ 3 := by
  cases x <;> decide

section
variable {i : Instr} {s u : State}

theorem exec_effect (h : exec i s = .next u) : Effect i s u := by
  cases i with
  | startSha1 inv =>
    obtain ⟨-, -, rfl⟩ := startCommand_next h
    exact .start .sha1 inv (.inl rfl)
  | startSha256 inv =>
    obtain ⟨-, -, rfl⟩ := startCommand_next h
    exact .start .sha256 inv (.inr rfl)
  | illegal c =>
    obtain ⟨-, hr⟩ := onCommand_next h
    cases hr
    exact .raise .illegalCommand (.inl ⟨c, rfl⟩)
  | readStatus =>
    cases h
    exact .read rfl
  | idle _ | done _ | error _ =>
    cases h
    exact .rest
  | check alg =>
    obtain ⟨-, rfl⟩ | ⟨-, rfl⟩ := execCheck_next h
    · exact .raise .invalidInput (.inr (.inl ⟨alg, rfl⟩))
    · exact .proceed _
  | pad alg =>
    obtain ⟨-, rfl⟩ | ⟨-, -, rfl⟩ := execPad_next h
    · exact .raise .lengthOverflow (.inr (.inr ⟨alg, rfl⟩))
    · exact .buffer alg _ _ _ rfl
  | sha1InitAcc | sha256InitAcc | sha1Fold | sha256Fold =>
    cases h
    exact .accumulator _ _ _ (by simp)
  | loadBlock alg =>
    obtain ⟨words, -, rfl⟩ := execLoadBlock_next h
    exact .schedule _ _ _ (.inl ⟨alg, rfl⟩)
  | sha1Expand =>
    obtain ⟨-, rfl⟩ := execSha1Expand_next h
    exact .schedule _ _ _ (.inr (.inl rfl))
  | sha256Expand =>
    obtain ⟨-, rfl⟩ := execSha256Expand_next h
    exact .schedule _ _ _ (.inr (.inr rfl))
  | sha1InitWs | sha256InitWs =>
    cases h
    exact .registers _ _ (by simp)
  | sha1Round =>
    obtain ⟨-, ⟨-, rfl⟩ | ⟨-, rfl⟩⟩ := execSha1Round_next h
    · exact .round _ _ _ _ (.inl rfl)
    · exact .hold (.inl rfl)
  | sha256Round =>
    obtain ⟨-, ⟨-, rfl⟩ | ⟨-, rfl⟩⟩ := execSha256Round_next h
    · exact .round _ _ _ _ (.inr rfl)
    · exact .hold (.inr (.inl rfl))
  | sha1Finalize =>
    obtain ⟨-, rfl⟩ | ⟨-, rfl⟩ := emitOrHold_next h
    · exact .digest _ _ (.inl rfl)
    · exact .hold (.inr (.inr (.inl rfl)))
  | sha256Finalize =>
    obtain ⟨-, rfl⟩ | ⟨-, rfl⟩ := emitOrHold_next h
    · exact .digest _ _ (.inr rfl)
    · exact .hold (.inr (.inr (.inr rfl)))
  | reservedPhase _ _ => cases h

/-! Frames. -/

theorem exec_keeps_blk_acc (h : exec i s = .next u)
    (hi : ¬ (i = .sha1InitAcc ∨ i = .sha256InitAcc ∨ i = .sha1Fold ∨ i = .sha256Fold)) : u.blk = s.blk ∧ u.acc = s.acc := by
  cases exec_effect h with
  | accumulator acc blk phase hacc => exact absurd hacc hi
  | _ => exact ⟨rfl, rfl⟩

theorem exec_keeps_t_w (h : exec i s = .next u) (hi : ¬ ((∃ alg, i = .loadBlock alg) ∨ i = .sha1Expand ∨ i = .sha256Expand)) :
    u.t = s.t ∧ u.w = s.w := by
  cases exec_effect h with
  | schedule w t phase hw => exact absurd hw hi
  | _ => exact ⟨rfl, rfl⟩

theorem exec_keeps_i_regs (h : exec i s = .next u)
    (hi : ¬ ((i = .sha1InitWs ∨ i = .sha256InitWs) ∨ i = .sha1Round ∨ i = .sha256Round)) : u.i = s.i ∧ u.regs = s.regs := by
  cases exec_effect h with
  | registers regs phase hws => exact absurd (.inl hws) hi
  | round idx snap regs phase hround => exact absurd (.inr hround) hi
  | _ => exact ⟨rfl, rfl⟩

theorem exec_keeps_salg (h : exec i s = .next u) (hstart : ∀ inv, ¬ (i = .startSha1 inv ∨ i = .startSha256 inv))
    (hfinalize : ¬ (i = .sha1Finalize ∨ i = .sha256Finalize)) : u.status.salg = s.status.salg := by
  cases exec_effect h with
  | start alg inv hi => exact absurd hi (hstart inv)
  | digest d alg hi => exact absurd hi hfinalize
  | _ => rfl

theorem exec_keeps_status (h : exec i s = .next u) (hstart : ∀ inv, ¬ (i = .startSha1 inv ∨ i = .startSha256 inv))
    (hraise : ¬ ((∃ c, i = .illegal c) ∨ (∃ alg, i = .check alg) ∨ ∃ alg, i = .pad alg))
    (hfinalize : ¬ (i = .sha1Finalize ∨ i = .sha256Finalize)) : u.status = s.status := by
  cases exec_effect h with
  | start alg inv hi => exact absurd hi (hstart inv)
  | raise x hi => exact absurd hi hraise
  | digest d alg hi => exact absurd hi hfinalize
  | _ => rfl

theorem exec_keeps_out_sink (h : exec i s = .next u) (hi : ¬ emits i) : u.out = s.out ∧ u.sink = s.sink := by
  cases exec_effect h with
  | round idx snap regs phase hround => exact absurd (hround.imp_right .inl) hi
  | digest d alg hfinalize => exact absurd (.inr (.inr hfinalize)) hi
  | hold hemits => exact absurd hemits hi
  | _ => exact ⟨rfl, rfl⟩

theorem exec_keeps_statusReads (h : exec i s = .next u) (hi : i ≠ .readStatus) : u.statusReads = s.statusReads := by
  cases exec_effect h with
  | read hread => exact absurd hread hi
  | _ => rfl

theorem exec_keeps_ports (h : exec i s = .next u) : u.host = s.host ∧ u.msgIn = s.msgIn ∧ u.msgCapacity = s.msgCapacity := by
  cases exec_effect h <;> exact ⟨rfl, rfl, rfl⟩

theorem exec_keeps_wf (h : exec i s = .next u) (hwf : s.p.wf) : u.p.wf := by
  cases exec_effect h with
  | buffer alg msg n phase hi => exact paddedBuffer_wf msg
  | _ => exact hwf

theorem exec_errcode_legal (h : exec i s = .next u) (hs : s.status.errcode.toNat < 4) : u.status.errcode.toNat < 4 := by
  cases exec_effect h with
  | start alg inv hi => exact (by decide : (0 : BitVec 4).toNat < 4)
  | raise x hi => exact Nat.lt_succ_of_le (exceptionCode_range x).2
  | digest d alg hi => exact (by decide : (0 : BitVec 4).toNat < 4)
  | _ => exact hs

theorem exec_sets_done (h : exec i s = .next u) (hs : s.status.done = false) (hu : u.status.done = true) :
    ∃ d, u.out = s.out ++ [.digest d] := by
  cases exec_effect h with
  | digest d alg hi => exact ⟨d, rfl⟩
  | start alg inv hi => cases hu
  | raise x hi => cases hu
  | _ => cases hs.symm.trans hu

theorem exec_sets_err (h : exec i s = .next u) (hs : s.status.err = false) (hu : u.status.err = true) : u.out = s.out := by
  cases exec_effect h with
  | round idx snap regs phase hi => cases hs.symm.trans hu
  | digest d alg hi => cases hu
  | _ => rfl

end

/-- Settles O47: of the registers that ALG, INV, MSG and L are, only the beginning of a computation writes one. -/
theorem messageRegistersFrame : Obligations.MessageRegistersFrame := by
  intro i s u h h1 h256
  cases exec_effect h with
  | start alg inv hi => exact hi.elim (absurd · (h1 inv)) (absurd · (h256 inv))
  | _ => exact ⟨rfl, rfl, rfl, rfl⟩

/-- Settles O48: the only effect with another P or N is that of PAD. -/
theorem bufferFrame : Obligations.BufferFrame := by
  intro i s u h hpad
  cases exec_effect h with
  | buffer alg msg n phase hi => exact absurd hi (hpad alg)
  | _ => exact ⟨rfl, fun _ => rfl⟩

/-- SHA-1 does not write ACC[5..7] (R160, R163). -/
theorem exec_sha1_keeps_high_acc {i : Instr} {s u : State} (h : exec i s = .next u) (hi : i = .sha1InitAcc ∨ i = .sha1Fold) :
    u.acc[5] = s.acc[5] ∧ u.acc[6] = s.acc[6] ∧ u.acc[7] = s.acc[7] := by
  rcases hi with rfl | rfl <;> cases h <;> exact ⟨rfl, rfl, rfl⟩

/-- SHA-1 does not write F, G and H (R161, R162). -/
theorem exec_sha1_keeps_high_regs {i : Instr} {s u : State} (h : exec i s = .next u) (hi : i = .sha1InitWs ∨ i = .sha1Round) :
    u.regs.f = s.regs.f ∧ u.regs.g = s.regs.g ∧ u.regs.h = s.regs.h := by
  rcases hi with rfl | rfl
  · cases h
    exact ⟨rfl, rfl, rfl⟩
  · obtain ⟨-, ⟨-, rfl⟩ | ⟨-, rfl⟩⟩ := execSha1Round_next h <;> exact ⟨rfl, rfl, rfl⟩

/-- SHA256.EXPAND writes an entry below 64 (R143). -/
theorem execSha256Expand_keeps_high_w {s u : State} (h : execSha256Expand s = .next u) {j : Nat} (hj : j < 80) (h64 : 64 ≤ j) :
    u.w[j] = s.w[j] := by
  obtain ⟨hr, rfl⟩ := execSha256Expand_next h
  exact Vector.getElem_set_ne (Nat.lt_trans hr.2 (by decide)) hj (by omega)

/-- Settles O49: each effect names the registers it writes; what an algorithm leaves alone of them is read off its own
instructions. -/
theorem hashRegistersFrame : Obligations.HashRegistersFrame := by
  intro i s u h
  refine ⟨fun h1 h2 h3 h4 => exec_keeps_blk_acc h (by simp [h1, h2, h3, h4]), exec_sha1_keeps_high_acc h,
    fun h1 h2 h3 => exec_keeps_t_w h (by simp [h1, h2, h3]), ?_,
    fun h1 h2 h3 h4 => exec_keeps_i_regs h (by simp [h1, h2, h3, h4]), exec_sha1_keeps_high_regs h⟩
  rintro rfl j hj h64
  exact execSha256Expand_keeps_high_w h hj h64

/-- Settles O50: each effect names what it writes of STATUS, OUT and the ports. -/
theorem statusAndPortsFrame : Obligations.StatusAndPortsFrame := by
  intro i s u h
  refine ⟨fun h1 h256 hillegal hcheck hpad hf1 hf256 => ?_, fun h1 h256 hf1 hf256 => ?_, fun h1 h2 h3 h4 => ?_,
    exec_keeps_statusReads h, exec_keeps_ports h⟩
  · exact exec_keeps_status h (by simp [h1, h256]) (by simp [hillegal, hcheck, hpad]) (by simp [hf1, hf256])
  · exact exec_keeps_salg h (by simp [h1, h256]) (by simp [hf1, hf256])
  · exact exec_keeps_out_sink h (by simp [emits, h1, h2, h3, h4])

/-! Steps. -/

theorem meaninglessState_reservedErrcode {s : State} (hp : s.phase.toNat < 12) (he : 4 ≤ s.status.errcode.toNat) :
    meaninglessState s = some .reservedErrcode := by
  have hphase : phaseReserved s.phase = false := decide_eq_false (by omega)
  rw [meaninglessState, if_neg (by simp [hphase])]
  exact if_pos (decide_eq_true he)

/-- Settles O8: a step looks at ERRCODE before it decodes anything; the codes that are written are 0 and those of the exceptions. -/
theorem reservedErrorCodeFaults : Obligations.ReservedErrorCodeFaults := by
  refine ⟨fun s hp he hr => ?_, fun i s u hs h => exec_errcode_legal h hs⟩
  rw [step_no_reset hr, meaninglessState_reservedErrcode hp he]

/-- What a step to a next state is when it is no reset: an instruction, run in a state that differs in the host's fields only. -/
theorem step_runs {s u : State} (h : step s = .next u) :
    (∃ rest, u = resetEngine { s with host := rest }) ∨
      ∃ i turns operand, exec i { s with host := turns, msgIn := operand } = .next u := by
  rcases step_cases h with ⟨rest, -, hu⟩ | ⟨-, -, i, -, hx⟩
  · exact .inl ⟨rest, hu⟩
  · obtain ⟨turns, operand, hs⟩ := presented_eq s
    exact .inr ⟨i, turns, operand, hs ▸ hx⟩

/-- Settles O54: a reset empties P, PAD builds it anew, and nothing else writes it. -/
theorem bufferStaysCanonical : Obligations.BufferStaysCanonical := by
  intro s u hwf h
  rcases step_runs h with ⟨rest, rfl⟩ | ⟨i, turns, operand, hx⟩
  · exact State.reset_p_wf
  · exact exec_keeps_wf hx hwf

/-- Settles O46: FINALIZE sets DONE with the Digest, and the error entry appends nothing. -/
theorem resultReportedWithDigest : Obligations.ResultReportedWithDigest := by
  intro s u h
  rcases step_runs h with ⟨rest, rfl⟩ | ⟨i, turns, operand, hx⟩
  · exact ⟨fun _ hdone => absurd hdone Bool.false_ne_true, fun _ _ => rfl⟩
  · exact ⟨fun hs hu => (exec_sets_done hx hs hu :), fun hs hu => (exec_sets_err hx hs hu :)⟩

/-! What a step appends to OUT. -/

theorem decodeCmd_not_emits (c : Word32) : ¬ emits (decodeCmd c) := by
  rcases decodeCmd_cases c with ⟨-, hd⟩ | ⟨-, hd⟩ | ⟨-, hd⟩ | ⟨-, hd⟩ | ⟨-, hd⟩ <;> simp [emits, hd]

/-- The phases of the emitting instructions are ROUND and FINALIZE (R75). -/
theorem decodePhase_not_emits (alg : Alg) {phase : BitVec 4} (hround : phase ≠ Phase.round) (hfinalize : phase ≠ Phase.finalize) :
    ¬ emits (decodePhase alg phase) := by
  unfold emits
  revert hround hfinalize
  cases alg <;> revert phase <;> decide

theorem length_snapshot (alg : Alg) (r : Regs) : (snapshot alg r).length = registerCount alg := by
  cases alg <;> rfl

theorem hexdigit_mem (n : BitVec 4) :
    hexdigit n ∈ ['0', '1', '2', '3', '4', '5', '6', '7', '8', '9', 'a', 'b', 'c', 'd', 'e', 'f'] :=
  List.mem_of_getElem? (getElem?_hexDigits n)

theorem hex8_mem {v : Word32} {x : Char} (h : x ∈ hex8 v) : ∃ n, x = hexdigit n := by
  simp only [hex8, List.mem_cons, List.not_mem_nil, or_false] at h
  rcases h with h | h | h | h | h | h | h | h <;> exact ⟨_, h⟩

section
variable {alg : Alg} {s u : State}

/-- A round that is taken appends the registers it leaves (R162, R192). -/
theorem out_of_round (h : exec (decodePhase alg Phase.round) s = .next u) :
    u.out = s.out ∨ s.i + 1 ≤ roundCount alg ∧ u.out = s.out ++ [.round (s.i + 1) (snapshot alg u.regs)] := by
  rw [exec_round] at h
  split at h
  · rcases emitOrHold_next h with ⟨-, rfl⟩ | ⟨-, rfl⟩
    · exact .inr ⟨‹_›, rfl⟩
    · exact .inl rfl
  · cases h

/-- A Digest has eight digits for each register of the algorithm (R220, R221). -/
theorem out_of_finalize (h : exec (decodePhase alg Phase.finalize) s = .next u) :
    u.out = s.out ∨ ∃ d : List Char, d.length = 8 * registerCount alg ∧ (∀ x ∈ d, ∃ n, x = hexdigit n) ∧
      u.out = s.out ++ [.digest d] := by
  rw [exec_finalize] at h
  rcases emitOrHold_next h with ⟨-, rfl⟩ | ⟨-, rfl⟩
  · refine .inr ⟨_, ?_, fun x hx => ?_, rfl⟩
    · simp [List.length_flatMap, length_snapshot, Nat.mul_comm]
    · obtain ⟨v, -, hv⟩ := List.mem_flatMap.1 hx
      exact hex8_mem hv
  · exact .inl rfl

end

/-- Settles O45: only ROUND and FINALIZE have an emitting instruction, and each of them appends its own kind of event. -/
theorem outputGrowsByEmissionOnly : Obligations.OutputGrowsByEmissionOnly := by
  intro s u h
  rcases step_next_cases h with ⟨rest, -, rfl⟩ | ⟨-, ⟨turns, -, rfl⟩ | ⟨c, msg, rest, -, hx⟩ | ⟨-, hx⟩⟩
  · exact .inl rfl
  · exact .inl rfl
  · exact .inl (exec_keeps_out_sink hx (decodeCmd_not_emits c)).1
  · by_cases hround : s.phase = Phase.round
    · rw [hround] at hx
      exact (out_of_round hx).imp_right fun ⟨hi, hout⟩ => .inl ⟨hround, hi, length_snapshot _ _, hout⟩
    · by_cases hfinalize : s.phase = Phase.finalize
      · rw [hfinalize] at hx
        refine (out_of_finalize hx).imp_right fun ⟨d, hlen, hdigits, hout⟩ => .inr ⟨hfinalize, d, hlen, fun x hx => ?_, hout⟩
        obtain ⟨n, rfl⟩ := hdigits x hx
        exact hexdigit_mem n
      · exact .inl (exec_keeps_out_sink hx (decodePhase_not_emits s.alg hround hfinalize)).1

end Sys2Proof.Machine
end

section
/-! PROOF. The invariant of the engine: the reset state meets it, and from a state that meets it every step has a next state that meets
it again, but for the host's two protocol violations. -/

namespace Sys2Proof.Machine

/-! The invariant at a phase that is known. -/

/-- What holds in every phase from CHECK to FINALIZE: STATUS is what the START wrote. -/
structure Running (s : State) : Prop where
  status_eq : s.status = statusRunning s.alg
  buffer_canonical : s.p.wf
  capacity_range : s.msgCapacity ≤ Config.maxMessageBytes

/-- `Inv` in a phase from CHECK to FINALIZE that is known: only the ranges of that phase have to be given. -/
structure RunningAt (phase : BitVec 4) (s : State) : Prop extends Running s where
  phase_is : s.phase = phase
  phase_range : 1 ≤ phase.toNat ∧ phase.toNat ≤ 9 := by decide
  message_bound : phase = Phase.check ∧ s.inv = false ∨ phase = Phase.pad → s.len = s.msg.length := by
    exact fun h => absurd (h.imp_left And.left) (by decide)
  buffer_padded : 3 ≤ phase.toNat ∧ phase.toNat ≤ 9 →
    s.len = s.msg.length ∧ s.len < 2 ^ 61 ∧ s.p = paddedBuffer s.msg ∧ s.n = blockCount s.len := by
    exact fun h => absurd h (by decide)
  block_range : 4 ≤ phase.toNat ∧ phase.toNat ≤ 8 → s.blk < s.n := by exact fun h => absurd h (by decide)
  schedule_range : phase = Phase.expand → 16 ≤ s.t ∧ s.t < scheduleLength s.alg := by exact fun h => absurd h (by decide)
  round_range : phase = Phase.round → s.i < roundCount s.alg := by exact fun h => absurd h (by decide)

theorem status_ext {x y : Status} (hbusy : x.busy = y.busy) (hdone : x.done = y.done) (herr : x.err = y.err)
    (hcode : x.errcode = y.errcode) (hsalg : x.salg = y.salg) : x = y := by
  cases x
  cases y
  congr

/-- A code from 1 to 9 is neither DONE nor ERROR. -/
theorem running_phase_ne : ∀ {phase : BitVec 4}, 1 ≤ phase.toNat ∧ phase.toNat ≤ 9 → phase ≠ Phase.done ∧ phase ≠ Phase.error := by
  decide

section
variable {phase : BitVec 4} {s : State}

theorem Inv.runningAt (h : Inv s) (hp : s.phase = phase) (hr : 1 ≤ phase.toNat ∧ phase.toNat ≤ 9) : RunningAt phase s := by
  subst hp
  obtain ⟨hne_done, hne_error⟩ := running_phase_ne hr
  have hbusy : s.status.busy = true := by rw [h.busy_iff, decide_eq_true hr]
  have hdone : s.status.done = false := by rw [h.done_iff, decide_eq_false hne_done]
  have herr : s.status.err = false := by rw [h.err_iff, decide_eq_false hne_error]
  have hcode : s.status.errcode = 0 := by simpa [herr] using h.errcode_range
  exact { h with phase_is := rfl, phase_range := hr, status_eq := status_ext hbusy hdone herr hcode (h.salg_eq (.inl hbusy)) }

theorem RunningAt.inv (h : RunningAt phase s) : Inv s := by
  obtain rfl := h.phase_is
  obtain ⟨hne_done, hne_error⟩ := running_phase_ne h.phase_range
  have hlegal := h.phase_range
  exact
    { h with
      phase_legal := by omega
      busy_iff := by rw [h.status_eq, decide_eq_true hlegal, statusRunning_busy]
      done_iff := by rw [h.status_eq, decide_eq_false hne_done, statusRunning_done]
      err_iff := by rw [h.status_eq, decide_eq_false hne_error, statusRunning_err]
      errcode_range := by simp [h.status_eq]
      salg_eq := fun _ => by rw [h.status_eq, statusRunning_salg] }

end

/-- `Inv` in IDLE, DONE and ERROR: nothing is in use, so only STATUS has to be given. -/
theorem Inv.at_rest {s : State} (hwf : s.p.wf) (hcap : s.msgCapacity ≤ Config.maxMessageBytes)
    (hp : s.phase = Phase.idle ∨ s.phase = Phase.done ∨ s.phase = Phase.error) (hbusy : s.status.busy = false)
    (hdone : s.status.done = decide (s.phase = Phase.done)) (herr : s.status.err = decide (s.phase = Phase.error))
    (hcode : if s.status.err then 1 ≤ s.status.errcode.toNat ∧ s.status.errcode.toNat ≤ 3 else s.status.errcode = 0)
    (hsalg : s.status.done = true → s.status.salg = s.alg) : Inv s := by
  have hrange : s.phase.toNat = 0 ∨ s.phase.toNat = 10 ∨ s.phase.toNat = 11 :=
    hp.imp (congrArg BitVec.toNat) (.imp (congrArg BitVec.toNat) (congrArg BitVec.toNat))
  have hne {phase : BitVec 4} (hr : 1 ≤ phase.toNat ∧ phase.toNat ≤ 9) : s.phase ≠ phase := by
    rintro rfl
    omega
  exact
    { buffer_canonical := hwf
      phase_legal := by omega
      busy_iff := by rw [hbusy, decide_eq_false (by omega)]
      done_iff := hdone
      err_iff := herr
      errcode_range := hcode
      salg_eq := by simpa [hbusy] using hsalg
      capacity_range := hcap
      message_bound := by
        rintro (⟨hcheck, -⟩ | hpad)
        · exact absurd hcheck (hne (by decide))
        · exact absurd hpad (hne (by decide))
      buffer_padded := by omega
      block_range := by omega
      schedule_range := fun h => absurd h (hne (by decide))
      round_range := fun h => absurd h (hne (by decide)) }

/-! The shared operations. -/

/-- The host's fields, the sink and OUT are no concern of the invariant. -/
theorem Inv.keep_ports {s : State} {host : List Turn} {msgIn : List Byte} {out : List Event} {sink : Sink} {reads : List Word32}
    (h : Inv s) : Inv { s with host := host, msgIn := msgIn, out := out, sink := sink, statusReads := reads } :=
  { h with }

theorem inv_raise {s : State} (x : Exception) (hwf : s.p.wf) (hcap : s.msgCapacity ≤ Config.maxMessageBytes) : Inv (raise x s) :=
  Inv.at_rest hwf hcap (.inr (.inr rfl)) rfl rfl rfl (exceptionCode_range x) (fun h => by cases h)

theorem inv_beginComputation {s : State} (alg : Alg) (inv : Bool) (hwf : s.p.wf)
    (hcap : s.msgCapacity ≤ Config.maxMessageBytes) : Inv (beginComputation alg inv s) :=
  RunningAt.inv (phase := Phase.check)
    { phase_is := rfl
      status_eq := rfl
      buffer_canonical := hwf
      capacity_range := hcap
      message_bound := by
        rintro (⟨-, rfl : inv = false⟩ | hpad)
        · rfl
        · exact absurd hpad (by decide) }

/-- Reset puts every register where the reset state has it, and keeps the capacity (R270). -/
theorem inv_resetEngine {s : State} (hcap : s.msgCapacity ≤ Config.maxMessageBytes) : Inv (resetEngine s) :=
  Inv.at_rest State.reset_p_wf hcap (.inl rfl) rfl rfl rfl rfl (fun h => by cases h)

/-- The answer is a next state that meets the invariant. -/
def AnswersInv (r : Result) : Prop :=
  ∃ u, r = .next u ∧ Inv u

theorem answersInv_next {u : State} (h : Inv u) : AnswersInv (.next u) :=
  ⟨u, rfl, h⟩

/-- Whether the sink accepts or not, an emitting step leads to one of the two states it is given. -/
theorem answersInv_emitOrHold {e : Event} {t s : State} (ht : Inv t) (hs : Inv s) : AnswersInv (emitOrHold e t s) := by
  rcases emitOrHold_cases e t s with ⟨-, hr⟩ | ⟨-, hr⟩ <;> rw [hr]
  · exact answersInv_next ht.keep_ports
  · exact answersInv_next hs.keep_ports

/-! The micro-operation of each phase. -/

section
variable {s : State}

/-- From LOAD_BLOCK to FOLD nothing but the schedule, the indices T and I, the working registers and ACC changes. -/
theorem RunningAt.in_block {phase next : BitVec 4} {t i : Nat} {w : Vector Word32 80} {regs : Regs} {acc : Vector Word32 8}
    (h : RunningAt phase s) (hb : 4 ≤ phase.toNat ∧ phase.toNat ≤ 8) (hn : 4 ≤ next.toNat ∧ next.toNat ≤ 8)
    (schedule_range : next = Phase.expand → 16 ≤ t ∧ t < scheduleLength s.alg := by exact fun h => absurd h (by decide))
    (round_range : next = Phase.round → i < roundCount s.alg := by exact fun h => absurd h (by decide)) :
    Inv { s with phase := next, t := t, i := i, w := w, regs := regs, acc := acc } := by
  have hcheck : next ≠ Phase.check := by
    rintro rfl
    exact absurd hn (by decide)
  have hpad : next ≠ Phase.pad := by
    rintro rfl
    exact absurd hn (by decide)
  exact RunningAt.inv (phase := next)
    { h with
      phase_is := rfl
      phase_range := by omega
      message_bound := fun hm => hm.elim (fun hc => absurd hc.1 hcheck) fun hc => absurd hc hpad
      buffer_padded := fun _ => h.buffer_padded (by omega)
      block_range := fun _ => h.block_range hb
      schedule_range, round_range }

theorem execCheck_answersInv (h : RunningAt Phase.check s) : AnswersInv (execCheck s) := by
  cases hi : s.inv with
  | true =>
    rw [execCheck_raises hi]
    exact answersInv_next (inv_raise _ h.buffer_canonical h.capacity_range)
  | false =>
    rw [execCheck_proceeds hi]
    exact answersInv_next (RunningAt.inv (phase := Phase.pad)
      { h.toRunning with
        phase_is := rfl
        message_bound := fun _ => h.message_bound (.inl ⟨rfl, hi⟩) })

theorem execPad_answersInv (h : RunningAt Phase.pad s) : AnswersInv (execPad s) := by
  have hlen := h.message_bound (.inr rfl)
  by_cases hmax : s.len < 2 ^ 61
  · rw [execPad_hashable hlen hmax]
    exact answersInv_next (RunningAt.inv (phase := Phase.initAcc)
      { h.toRunning with
        phase_is := rfl
        buffer_canonical := paddedBuffer_wf s.msg
        buffer_padded := fun _ => ⟨hlen, hmax, rfl, rfl⟩ })
  · rw [execPad_overflow (by omega)]
    exact answersInv_next (inv_raise _ h.buffer_canonical h.capacity_range)

theorem exec_initAcc_answersInv (h : RunningAt Phase.initAcc s) :
    AnswersInv (exec (decodePhase s.alg Phase.initAcc) s) := by
  obtain ⟨hlen, hmax, hp, hn⟩ := h.buffer_padded (by decide)
  obtain ⟨acc, hs, -⟩ := exec_initAcc s.alg s
  rw [hs]
  exact answersInv_next (RunningAt.inv (phase := Phase.loadBlock)
    { h.toRunning with
      phase_is := rfl
      buffer_padded := fun _ => ⟨hlen, hmax, hp, hn⟩
      block_range := fun _ => hn ▸ blockCount_pos s.len })

/-- P holds the words of every block, so LOAD_BLOCK never reads a byte that PAD has not written (R57). -/
theorem execLoadBlock_answersInv (h : RunningAt Phase.loadBlock s) : AnswersInv (execLoadBlock s) := by
  obtain ⟨hlen, -, hp, hn⟩ := h.buffer_padded (by decide)
  have hb : s.blk < blockCount s.msg.length := by
    rw [← hlen, ← hn]
    exact h.block_range (by decide)
  have hread := readWords_paddedBuffer hb
  rw [← hp] at hread
  rw [execLoadBlock, hread]
  exact answersInv_next (h.in_block (next := Phase.expand) (by decide) (by decide)
    (schedule_range := fun _ => ⟨Nat.le_refl 16, (scheduleLength_bounds s.alg).1⟩))

theorem exec_expand_answersInv (h : RunningAt Phase.expand s) : AnswersInv (exec (decodePhase s.alg Phase.expand) s) := by
  obtain ⟨h16, hlt⟩ := h.schedule_range rfl
  rw [exec_expand, dif_pos ⟨h16, hlt⟩]
  by_cases hlast : s.t + 1 = scheduleLength s.alg
  · simp only [if_pos hlast]
    exact answersInv_next (h.in_block (next := Phase.initWs) (by decide) (by decide))
  · simp only [if_neg hlast]
    exact answersInv_next (h.in_block (next := Phase.expand) (by decide) (by decide)
      (schedule_range := fun _ => ⟨by omega, by omega⟩))

theorem exec_initWs_answersInv (h : RunningAt Phase.initWs s) : AnswersInv (exec (decodePhase s.alg Phase.initWs) s) := by
  obtain ⟨regs, hs, -⟩ := exec_initWs s.alg s
  rw [hs]
  exact answersInv_next (h.in_block (next := Phase.round) (by decide) (by decide)
    (round_range := fun _ => by cases s.alg <;> decide))

theorem exec_round_answersInv (h : RunningAt Phase.round s) : AnswersInv (exec (decodePhase s.alg Phase.round) s) := by
  have hi := h.round_range rfl
  rw [exec_round, if_pos hi]
  refine answersInv_emitOrHold ?_ h.inv
  by_cases hlast : s.i + 1 = roundCount s.alg
  · simp only [if_pos hlast]
    exact h.in_block (next := Phase.fold) (by decide) (by decide)
  · simp only [if_neg hlast]
    exact h.in_block (next := Phase.round) (by decide) (by decide) (round_range := fun _ => by omega)

theorem exec_fold_answersInv (h : RunningAt Phase.fold s) : AnswersInv (exec (decodePhase s.alg Phase.fold) s) := by
  have hb := h.block_range (by decide)
  have hbuffer := h.buffer_padded (by decide)
  obtain ⟨acc, hs, -⟩ := exec_fold s.alg s
  rw [hs]
  by_cases hlast : s.blk + 1 = s.n
  · simp only [if_pos hlast]
    exact answersInv_next (RunningAt.inv (phase := Phase.finalize)
      { h.toRunning with
        phase_is := rfl
        buffer_padded := fun _ => hbuffer })
  · simp only [if_neg hlast]
    exact answersInv_next (RunningAt.inv (phase := Phase.loadBlock)
      { h.toRunning with
        phase_is := rfl
        buffer_padded := fun _ => hbuffer
        block_range := fun _ => by show s.blk + 1 < s.n; omega })

theorem exec_finalize_answersInv (h : RunningAt Phase.finalize s) :
    AnswersInv (exec (decodePhase s.alg Phase.finalize) s) := by
  rw [exec_finalize]
  exact answersInv_emitOrHold
    (Inv.at_rest h.buffer_canonical h.capacity_range (.inr (.inl rfl)) rfl rfl rfl rfl fun _ => rfl) h.inv

/-- The engine's turn, whatever the phase. -/
theorem microOperation_answersInv (h : Inv s) : AnswersInv (exec (decodePhase s.alg s.phase) s) := by
  rcases phase_cases h.phase_legal with hp | hp | hp | hp | hp | hp | hp | hp | hp | hp | hp | hp <;> rw [hp]
  · exact answersInv_next h
  · exact execCheck_answersInv (h.runningAt hp (by decide))
  · exact execPad_answersInv (h.runningAt hp (by decide))
  · exact exec_initAcc_answersInv (h.runningAt hp (by decide))
  · exact execLoadBlock_answersInv (h.runningAt hp (by decide))
  · exact exec_expand_answersInv (h.runningAt hp (by decide))
  · exact exec_initWs_answersInv (h.runningAt hp (by decide))
  · exact exec_round_answersInv (h.runningAt hp (by decide))
  · exact exec_fold_answersInv (h.runningAt hp (by decide))
  · exact exec_finalize_answersInv (h.runningAt hp (by decide))
  · exact answersInv_next h
  · exact answersInv_next h

/-! The host's commands. -/

/-- The two refusals the spec gives a command write: a computation runs (R105), or a START with INV = 0 brings a message above the
capacity (R106). -/
def Violation (s : State) (c : Word32) (msg : List Byte) (r : Refusal) : Prop :=
  r = .commandWhileBusy ∧ s.status.busy = true ∨
  r = .messageOverCapacity ∧ s.status.busy = false ∧ s.msgCapacity < msg.length ∧ msg.length ≤ 2 ^ 61 - 1 ∧
    (decode (.cmd c) = .ok (.startSha1 false) ∨ decode (.cmd c) = .ok (.startSha256 false))

/-- Under the invariant a command is accepted in IDLE, DONE and ERROR, and refused in the other phases. -/
theorem Inv.onCommand_cases (h : Inv s) (r : Result) :
    s.status.busy = false ∧ onCommand s r = r ∨ s.status.busy = true ∧ onCommand s r = .refused .commandWhileBusy := by
  have hbusy := h.busy_iff
  by_cases hr : 1 ≤ s.phase.toNat ∧ s.phase.toNat ≤ 9
  · rw [decide_eq_true hr] at hbusy
    exact .inr ⟨hbusy, onCommand_busy r hr⟩
  · rw [decide_eq_false hr] at hbusy
    have haccepts : acceptsCommand s.phase = true := by
      have hlegal := h.phase_legal
      revert hlegal hr
      generalize s.phase = phase
      revert phase
      decide
    exact .inl ⟨hbusy, onCommand_accepted r haccepts⟩

theorem startCommand_answersInv {c : Word32} {alg : Alg} {inv : Bool} (h : Inv s)
    (hc : inv = false → decode (.cmd c) = .ok (.startSha1 false) ∨ decode (.cmd c) = .ok (.startSha256 false)) :
    AnswersInv (startCommand alg inv s) ∨ ∃ r, startCommand alg inv s = .refused r ∧ Violation s c s.msgIn r := by
  rcases h.onCommand_cases
    (if !inv && overCapacity s then .refused .messageOverCapacity else .next (beginComputation alg inv s)) with
    ⟨hbusy, hr⟩ | ⟨hbusy, hr⟩ <;> rw [startCommand, hr]
  · split
    · rename_i hover
      rw [Bool.and_eq_true, Bool.not_eq_true', overCapacity_iff] at hover
      obtain ⟨hinv, hlt, hmax⟩ := hover
      exact .inr ⟨_, rfl, .inr ⟨rfl, hbusy, hlt, hmax, hc hinv⟩⟩
    · exact .inl (answersInv_next (inv_beginComputation alg inv h.buffer_canonical h.capacity_range))
  · exact .inr ⟨_, rfl, .inl ⟨rfl, hbusy⟩⟩

theorem command_answersInv (h : Inv s) (c : Word32) :
    AnswersInv (exec (decodeCmd c) s) ∨ ∃ r, exec (decodeCmd c) s = .refused r ∧ Violation s c s.msgIn r := by
  rcases decodeCmd_cases c with ⟨rfl, hd⟩ | ⟨rfl, hd⟩ | ⟨rfl, hd⟩ | ⟨rfl, hd⟩ | ⟨-, hd⟩ <;> rw [hd]
  · exact startCommand_answersInv h fun _ => .inl rfl
  · exact startCommand_answersInv h (fun hinv => by cases hinv)
  · exact startCommand_answersInv h fun _ => .inr rfl
  · exact startCommand_answersInv h (fun hinv => by cases hinv)
  · rcases h.onCommand_cases (.next (raise .illegalCommand s)) with ⟨-, hr⟩ | ⟨hbusy, hr⟩
    · exact .inl ⟨_, hr, inv_raise _ h.buffer_canonical h.capacity_range⟩
    · exact .inr ⟨_, hr, .inl ⟨rfl, hbusy⟩⟩

/-! The step. -/

theorem Inv.errcode_legal (h : Inv s) : s.status.errcode.toNat < 4 := by
  have hcode := h.errcode_range
  split at hcode
  · omega
  · rw [hcode]
    decide

theorem Inv.meaninglessState_none (h : Inv s) : meaninglessState s = none :=
  Machine.meaninglessState_none h.phase_legal h.errcode_legal

/-- Under the invariant a step has a next state that meets it again, but for a command write that the spec has refused. -/
theorem step_answersInv (h : Inv s) :
    AnswersInv (step s) ∨ ∃ c msg rest r, s.host = .write c msg :: rest ∧ step s = .refused r ∧ Violation s c msg r := by
  have hm := h.meaninglessState_none
  have hengine (ht : engineTurn s) : AnswersInv (step s) := by
    rw [step_engine ht hm]
    exact microOperation_answersInv (s := { s with host := s.host.tail }) h.keep_ports
  have hread {rest : List Turn} (hh : s.host = .read :: rest ∨ s.host = .wait :: rest) : AnswersInv (step s) := by
    obtain ⟨turns, hs⟩ := step_read hh hm
    exact ⟨_, hs, h.keep_ports⟩
  cases hh : s.host with
  | nil => exact .inl (hengine (.inl hh))
  | cons turn rest =>
    cases turn with
    | engine => exact .inl (hengine (.inr ⟨rest, hh⟩))
    | read => exact .inl (hread (.inl hh))
    | wait => exact .inl (hread (.inr hh))
    | reset => exact .inl ⟨_, step_reset hh, inv_resetEngine h.capacity_range⟩
    | write c msg =>
      have hport : Inv { s with host := rest, msgIn := msg } := h.keep_ports
      rw [step_write hh hm]
      exact (command_answersInv hport c).imp_right fun ⟨r, hr, hv⟩ => ⟨c, msg, rest, r, rfl, hr, hv⟩

end

/-- Settles O53: the reset state is what a reset leaves of it. -/
theorem resetMeetsInvariant : Obligations.ResetMeetsInvariant :=
  ⟨inv_resetEngine (s := State.reset) (Nat.le_refl _), rfl, by decide, rfl⟩

/-- Settles O55: a step that has a next state under the invariant has one that meets it, and there is only one. -/
theorem stepKeepsInvariant : Obligations.StepKeepsInvariant := by
  intro s u h hs
  rcases step_answersInv h with ⟨v, hv, hinv⟩ | ⟨_, _, _, _, -, hr, -⟩
  · cases hv.symm.trans hs
    exact hinv
  · cases hr.symm.trans hs

/-- Settles O56: the answers under the invariant are next states and refusals. -/
theorem invariantExcludesFaults : Obligations.InvariantExcludesFaults := by
  intro s f h hs
  rcases step_answersInv h with ⟨v, hv, -⟩ | ⟨_, _, _, _, -, hr, -⟩
  · cases hv.symm.trans hs
  · cases hr.symm.trans hs

/-- Settles O57: the refusals under the invariant are the two of the command port. -/
theorem onlyProtocolViolationsRefused : Obligations.OnlyProtocolViolationsRefused := by
  intro s r h hs
  rcases step_answersInv h with ⟨v, hv, -⟩ | ⟨c, msg, rest, _, hh, hr, hv⟩
  · cases hv.symm.trans hs
  · cases hr.symm.trans hs
    exact ⟨c, msg, rest, hh, hv⟩

end Sys2Proof.Machine
end

section
/-! PROOF. The step and the ports of host and sink: the instruction a turn runs, the STATUS word, a START that goes straight to its
exception, and the sink that decides when an event leaves. -/

namespace Sys2Proof.Machine

/-! The step (R20). -/

/-- Settles O58: agreement on the live registers is kept by every step. -/
theorem unwrittenRegistersNeverRead : Obligations.UnwrittenRegistersNeverRead :=
  fun _ _ => step_liveAgree

/-- A run whose first step is known goes on from there. -/
theorem run_succ_of_step {s u : State} (h : step s = .next u) (k : Nat) : core.run (k + 1) s = core.run k u := by
  simp only [Host.Core.run, show core.step s = .next u from h]

/-- Without a meaningless code a step that is no reset runs what its turn presents. -/
theorem step_of_presented {s v : State} {f : Fetched} {i : Instr} (hm : meaninglessState s = none)
    (hr : ∀ rest, s.host ≠ .reset :: rest) (hp : presented s = (f, v)) (hd : decode f = .ok i) : step s = exec i v := by
  rw [step_no_reset hr, hm, hp]
  simp only [hd]

/-- Settles O6: each turn presents one form and one state, and the step runs what the form decodes to in that state. -/
theorem stepRunsDecodedInstruction : Obligations.StepRunsDecodedInstruction := by
  intro s i hp he
  have hm := meaninglessState_none hp he
  refine ⟨fun hh hd => ?_, fun rest hh hd => ?_, fun c msg rest hh hd => ?_, fun rest hh => ?_, fun rest hh hb => ?_,
    fun rest hh hb => ?_⟩
  · exact step_of_presented hm (by simp [hh]) (by simp only [presented, hh]) hd
  · exact step_of_presented hm (by simp [hh]) (by simp only [presented, hh]) hd
  · exact step_of_presented hm (by simp [hh]) (by simp only [presented, hh]) hd
  · exact step_of_presented (f := .statusRead) hm (by simp [hh]) (by simp only [presented, hh]) rfl
  · exact step_of_presented (f := .statusRead) hm (by simp [hh]) (by simp [presented, hh, hb]) rfl
  · exact step_of_presented (f := .statusRead) hm (by simp [hh]) (by simp [presented, hh, hb]) rfl

/-- Settles O52: a reset is taken before anything else, and `resetEngine` is the reset state with the ports kept. -/
theorem resetReturnsToIdle : Obligations.ResetReturnsToIdle :=
  fun _ _ hh => ⟨_, step_reset hh, rfl, (by decide : statusWord State.reset.status = 0x00000000), rfl, rfl, rfl⟩

/-- Settles O39: the instructions of these phases answer the state they run in. -/
theorem noStepPhasesHold : Obligations.NoStepPhasesHold :=
  fun _ _ => ⟨rfl, rfl, rfl⟩

/-! STATUS (R34, R104). -/

/-- Settles O12: READ_STATUS has one outcome, R104's. -/
theorem readStatusReturnsWord : Obligations.ReadStatusReturnsWord :=
  fun _ => rfl

/-- The fields of the STATUS word from bit 0 up, and zeros in bits 31:9 (R34). -/
theorem getLsbD_statusWord (st : Status) (k : Nat) :
    (statusWord st).getLsbD k =
      if k = 0 then st.busy else if k = 1 then st.done else if k = 2 then st.err else if k = 3 then false
      else if k < 8 then st.errcode.getLsbD (k - 4) else if k = 8 then st.salg.bit.getLsbD 0 else false := by
  simp only [statusWord, BitVec.getLsbD_append, BitVec.getLsbD_ofBool, BitVec.getLsbD_zero]
  match k with
  | 0 | 1 | 2 | 3 | 4 | 5 | 6 | 7 | 8 => rfl
  | k + 9 => simp

/-- Settles O15: bit by bit, each field of the word is the field of STATUS. -/
theorem statusWordLayout : Obligations.StatusWordLayout := by
  intro st
  refine ⟨getLsbD_statusWord st 0, getLsbD_statusWord st 1, getLsbD_statusWord st 2, getLsbD_statusWord st 3, ?_, ?_, ?_⟩
  · refine BitVec.eq_of_getLsbD_eq fun k hk => ?_
    rw [BitVec.getLsbD_extractLsb', getLsbD_statusWord]
    interval_cases k <;> rfl
  · have hbit : (statusWord st).extractLsb' 8 1 = st.salg.bit := by
      refine BitVec.eq_of_getLsbD_eq fun k hk => ?_
      rw [BitVec.getLsbD_extractLsb', getLsbD_statusWord]
      interval_cases k
      rfl
    cases hsalg : st.salg <;> rw [hbit, hsalg] <;> rfl
  · refine BitVec.eq_of_getLsbD_eq fun k hk => ?_
    rw [BitVec.getLsbD_extractLsb', getLsbD_statusWord]
    simp (disch := omega) only [if_neg, BitVec.getLsbD_zero, Bool.and_false]

/-! START and the exceptions (R106, R246, R250). -/

theorem startCommand_over_capacity {s : State} (alg : Alg)
    (hp : s.phase = Phase.idle ∨ s.phase = Phase.done ∨ s.phase = Phase.error) (hlt : s.msgCapacity < s.msgIn.length)
    (hmax : s.msgIn.length ≤ 2 ^ 61 - 1) : startCommand alg false s = .refused .messageOverCapacity := by
  have hover : overCapacity s = true := (overCapacity_iff s).2 ⟨hlt, hmax⟩
  rw [startCommand, onCommand_accepted _ ((acceptsCommand_iff s.phase).2 hp), hover]
  rfl

/-- With INV = 1 no length is held against the capacity (log entry 6). -/
theorem startCommand_inv {s : State} (alg : Alg) (hp : s.phase = Phase.idle ∨ s.phase = Phase.done ∨ s.phase = Phase.error) :
    startCommand alg true s = .next (beginComputation alg true s) :=
  startCommand_accepted ((acceptsCommand_iff s.phase).2 hp) rfl

/-- Settles O14: the capacity is tested with INV = 0 only, and for lengths below 2^61 only. -/
theorem capacityRefused : Obligations.CapacityRefused := by
  intro s hp
  refine ⟨fun hlt hmax => ?_, fun hlong => ?_, startCommand_inv .sha1 hp, startCommand_inv .sha256 hp⟩
  · exact ⟨startCommand_over_capacity .sha1 hp hlt hmax, startCommand_over_capacity .sha256 hp hlt hmax⟩
  · exact ⟨⟨_, startCommand_begins .sha1 false hp (.inr hlong)⟩, ⟨_, startCommand_begins .sha256 false hp (.inr hlong)⟩⟩

/-- CHECK with INV = 1 (R120). -/
theorem step_check_raises {s : State} (hp : s.phase = Phase.check) (hinv : s.inv = true) (he : s.status.errcode.toNat < 4)
    (hh : s.host = []) : step s = .next (raise .invalidInput s) :=
  (step_no_turns hh he hp (by decide)).trans (execCheck_raises hinv)

/-- A START with INV = 1 and the CHECK after it end in InvalidInput (R246). -/
theorem run_start_inv {s : State} {c : Word32} {msg : List Byte} (alg : Alg) (hh : s.host = [.write c msg])
    (hp : s.phase = Phase.idle ∨ s.phase = Phase.done ∨ s.phase = Phase.error) (he : s.status.errcode.toNat < 4)
    (hc : ∀ v, exec (decodeCmd c) v = startCommand alg true v) :
    ∃ u, core.run 2 s = .next u ∧ u.phase = Phase.error ∧ u.status = statusFailed .invalidInput (statusRunning alg) ∧
      u.out = s.out := by
  have hlegal : s.phase.toNat < 12 := by rcases hp with hp | hp | hp <;> rw [hp] <;> decide
  have hstart := (step_write hh (meaninglessState_none hlegal he)).trans ((hc _).trans (startCommand_inv alg hp))
  exact ⟨_, (run_succ_of_step hstart 1).trans (run_succ_of_step (step_check_raises rfl rfl (by simp) rfl) 0), rfl, rfl, rfl⟩

/-- Settles O43: neither the START nor CHECK looks at the length when INV = 1. -/
theorem invalidInputComesFirst : Obligations.InvalidInputComesFirst := by
  refine fun s msg hp he => ⟨fun hh => ?_, fun hh => ?_⟩
  · obtain ⟨u, hrun, hphase, hstatus, hout⟩ := run_start_inv .sha1 hh hp he fun _ => rfl
    exact ⟨u, hrun, hphase, by rw [hstatus]; rfl, hout⟩
  · obtain ⟨u, hrun, hphase, hstatus, hout⟩ := run_start_inv .sha256 hh hp he fun _ => rfl
    exact ⟨u, hrun, hphase, by rw [hstatus]; rfl, hout⟩

/-! The sink (R281). -/

/-- The engine is about to offer the sink an event, with no host turn in the way. -/
structure Offering (s : State) : Prop where
  phase_emits : s.phase = Phase.round ∧ s.i < roundCount s.alg ∨ s.phase = Phase.finalize
  errcode_legal : s.status.errcode.toNat < 4
  host_eq : s.host = []

section
variable {s : State}

theorem Offering.step_emits (h : Offering s) : ∃ e t, step s = emitOrHold e t s := by
  rcases h.phase_emits with ⟨hp, hi⟩ | hp <;> rw [step_no_turns h.host_eq h.errcode_legal hp (by decide)]
  · rw [exec_round, if_pos hi]
    exact ⟨_, _, rfl⟩
  · rw [exec_finalize]
    exact ⟨_, _, rfl⟩

/-- Whether the engine offers an event does not depend on the sink. -/
theorem Offering.with_sink (h : Offering s) (k : Sink) : Offering { s with sink := k } :=
  { h with }

/-- A refusal uses up one of the sink's answers and changes nothing else. -/
theorem Offering.step_held (h : Offering s) (ha : s.sink.accepts = false) :
    step s = .next { s with sink := s.sink.answered } := by
  obtain ⟨e, t, hs⟩ := h.step_emits
  rw [hs, emitOrHold_held ha]

theorem Offering.step_accepted (h : Offering s) (ha : s.sink.accepts = true) :
    ∃ u e, step s = .next u ∧ u.out = s.out ++ [e] ∧ u.sink = s.sink.answered := by
  obtain ⟨e, t, hs⟩ := h.step_emits
  exact ⟨_, e, hs.trans (emitOrHold_accepted ha), rfl, rfl⟩

/-- A sink that never accepts holds the engine for ever. -/
theorem Offering.run_closed (h : Offering s) (hsink : s.sink = ⟨[], false⟩) (k : Nat) : core.run k s = .next s := by
  have hstep : step s = .next s := by
    have hs := h.step_held (by rw [hsink]; rfl)
    have hanswered : s.sink.answered = s.sink := by rw [hsink]; rfl
    rwa [hanswered] at hs
  induction k with
  | zero => rfl
  | succ k ih => rw [run_succ_of_step hstep, ih]

/-- After `k` refusals only the sink has changed: those answers are used up. -/
theorem Offering.run_refused {k : Nat} {rest : List Bool} (h : Offering s)
    (hanswers : s.sink.answers = List.replicate k false ++ rest) :
    core.run k s = .next { s with sink := ⟨rest, s.sink.rest⟩ } := by
  induction k generalizing s with
  | zero =>
    have hsink : (⟨rest, s.sink.rest⟩ : Sink) = s.sink := congrArg (Sink.mk · s.sink.rest) hanswers.symm
    rw [hsink]
    rfl
  | succ k ih =>
    rw [List.replicate_succ, List.cons_append] at hanswers
    have hheld := h.step_held (by rw [Sink.accepts, hanswers])
    have htail : s.sink.answered.answers = List.replicate k false ++ rest := by
      rw [Sink.answered, hanswers, List.tail_cons]
    rw [run_succ_of_step hheld]
    exact ih (h.with_sink _) htail

end

/-- Settles O44: a refusal changes the sink alone, so the engine offers the same event until the sink takes it. -/
theorem sinkDecidesWhenEventLeaves : Obligations.SinkDecidesWhenEventLeaves := by
  intro k s hp he hh
  have h : Offering s := ⟨hp, he, hh⟩
  refine ⟨fun hsink => h.run_closed hsink k, fun answers hanswers => ?_⟩
  have hrefused := h.run_refused hanswers
  obtain ⟨u, e, hs, hout, hsink⟩ := (h.with_sink ⟨true :: answers, s.sink.rest⟩).step_accepted rfl
  exact ⟨hrefused, u, e, run_trans hrefused (run_succ_of_step hs 0), hout, hsink⟩

end Sys2Proof.Machine

namespace Sys2Proof

/-- Settles O41: each of the three answers `raise`, which is the error entry with the code of its exception. -/
theorem errorEntry : Obligations.ErrorEntry :=
  fun s _ c => ⟨Machine.execCheck_raises, Machine.execPad_overflow, Machine.illegalCommandRaises.2 s c⟩

end Sys2Proof
end
